-- ==== Sys2Proof/Word.lean ====
section
/-! DEFINITION. The machine's word: every register and every memory cell is one byte (spec/00_scope.md R4, R5). -/

namespace Sys2Proof

/-- A byte, 0 to 255, the machine's only word size (spec/00_scope.md R5). -/
abbrev Byte := BitVec 8

/-- The index of a general register, 0 to 7 (spec/10_state.md R10). -/
abbrev RegIndex := Fin 8

end Sys2Proof
end

