-- ==== Sys2Proof/Syntax.lean ====
section
/-! DEFINITION. The instructions: one constructor for each of the 29 rows of spec/opcode_table.json
(spec/30_encoding.md R55). An operand is the operand byte as the step fetched it (R56, R57): a register operand of 8
or more can be fetched, and what it does is the InvalidRegister fault, so it is not shut out here. -/

namespace Sys2Proof

/-- The instructions of the CA1-8 ISA. `a` is the byte at pc + 1 (`opA`), `b` the byte at pc + 2 (`opB`); both are
register indices, but for the second operand of LDI, which is a literal (spec/30_encoding.md R51, R55). -/
inductive Instr where
  -- format Z
  | nop
  | hlt
  | iret
  | ret
  -- format R
  | prn (a : Byte)
  | pra (a : Byte)
  | push (a : Byte)
  | pop (a : Byte)
  | call (a : Byte)
  | jmp (a : Byte)
  | jeq (a : Byte)
  | jne (a : Byte)
  | jgt (a : Byte)
  | jlt (a : Byte)
  -- format RI
  | ldi (a lit : Byte)
  -- format RR
  | ld (a b : Byte)
  | st (a b : Byte)
  -- ALU, format R
  | not (a : Byte)
  | inc (a : Byte)
  | dec (a : Byte)
  -- ALU, format RR
  | add (a b : Byte)
  | sub (a b : Byte)
  | mul (a b : Byte)
  | div (a b : Byte)
  | mod (a b : Byte)
  | and (a b : Byte)
  | or (a b : Byte)
  | xor (a b : Byte)
  | cmp (a b : Byte)
  deriving DecidableEq, Repr

end Sys2Proof
end

