-- ==== Sys2Proof/WellFormed.lean ====
section
/-! DEFINITION. Which instructions are well formed: every operand byte that spec/30_encoding.md R55 marks `reg` is a
register index 0 to 7 (R56). -/

namespace Sys2Proof

/-- A register operand byte names a register (spec/30_encoding.md R56). -/
def regOperandOk (b : Byte) : Bool := decide (b.toNat < 8)

/-- The operand bytes that the instruction uses as register indices, in the order in which
spec/40_step_cycle.md R75 checks them. LDI's literal is not one of them. -/
def Instr.regOperands : Instr → List Byte
  | .nop => []
  | .hlt => []
  | .iret => []
  | .ret => []
  | .prn a => [a]
  | .pra a => [a]
  | .push a => [a]
  | .pop a => [a]
  | .call a => [a]
  | .jmp a => [a]
  | .jeq a => [a]
  | .jne a => [a]
  | .jgt a => [a]
  | .jlt a => [a]
  | .ldi a _ => [a]
  | .ld a b => [a, b]
  | .st a b => [a, b]
  | .not a => [a]
  | .inc a => [a]
  | .dec a => [a]
  | .add a b => [a, b]
  | .sub a b => [a, b]
  | .mul a b => [a, b]
  | .div a b => [a, b]
  | .mod a b => [a, b]
  | .and a b => [a, b]
  | .or a b => [a, b]
  | .xor a b => [a, b]
  | .cmp a b => [a, b]

/-- The check of spec/40_step_cycle.md R75 on an instruction: all its register operands are 0 to 7. -/
def Instr.wellFormed (i : Instr) : Bool := i.regOperands.all regOperandOk

end Sys2Proof
end

