-- ==== Sys2Proof/Decode.lean ====
section
/-! DEFINITION. The decoder, the encoder and the opcode map (spec/30_encoding.md R50 to R55). The opcode bytes are the
spec's own assignment (its decision D1, log entry 2). -/

namespace Sys2Proof

/-- Why the decoder finds no instruction. An operand byte never takes part in selecting one (spec/30_encoding.md
R53), so a register operand of 8 or more is no ground to refuse here: the instruction is found, and its meaning takes
the InvalidRegister fault (spec/40_step_cycle.md R75). -/
inductive DecodeError where
  /-- `op` is none of the 29 opcode bytes (spec/30_encoding.md R58). -/
  | illegalOpcode (op : Byte)
  deriving DecidableEq, Repr

/-- Steps 4 and 5 of spec/40_step_cycle.md R74: look the whole opcode byte up in the map of spec/30_encoding.md R55.
`opA` and `opB` are the two candidate operand bytes; those the instruction does not use are ignored (R59). -/
def decode (op opA opB : Byte) : Except DecodeError Instr :=
  match op with
  | 0x00 => .ok .nop
  | 0x01 => .ok .hlt
  | 0x02 => .ok .iret
  | 0x10 => .ok .ret
  | 0x20 => .ok (.prn opA)
  | 0x21 => .ok (.pra opA)
  | 0x22 => .ok (.push opA)
  | 0x23 => .ok (.pop opA)
  | 0x30 => .ok (.call opA)
  | 0x31 => .ok (.jmp opA)
  | 0x32 => .ok (.jeq opA)
  | 0x33 => .ok (.jne opA)
  | 0x34 => .ok (.jgt opA)
  | 0x35 => .ok (.jlt opA)
  | 0x40 => .ok (.ldi opA opB)
  | 0x41 => .ok (.ld opA opB)
  | 0x42 => .ok (.st opA opB)
  | 0xA0 => .ok (.not opA)
  | 0xA1 => .ok (.inc opA)
  | 0xA2 => .ok (.dec opA)
  | 0xC0 => .ok (.add opA opB)
  | 0xC1 => .ok (.sub opA opB)
  | 0xC2 => .ok (.mul opA opB)
  | 0xC3 => .ok (.div opA opB)
  | 0xC4 => .ok (.mod opA opB)
  | 0xC5 => .ok (.and opA opB)
  | 0xC6 => .ok (.or opA opB)
  | 0xC7 => .ok (.xor opA opB)
  | 0xC8 => .ok (.cmp opA opB)
  | other => .error (.illegalOpcode other)

/-- The bytes of an instruction at ascending addresses: opcode, first operand, second operand, from the opcode map of
spec/30_encoding.md R55 and the formats of R51 (spec/20_memory.md R37). -/
def Instr.encode : Instr → List Byte
  | .nop => [0x00]
  | .hlt => [0x01]
  | .iret => [0x02]
  | .ret => [0x10]
  | .prn a => [0x20, a]
  | .pra a => [0x21, a]
  | .push a => [0x22, a]
  | .pop a => [0x23, a]
  | .call a => [0x30, a]
  | .jmp a => [0x31, a]
  | .jeq a => [0x32, a]
  | .jne a => [0x33, a]
  | .jgt a => [0x34, a]
  | .jlt a => [0x35, a]
  | .ldi a lit => [0x40, a, lit]
  | .ld a b => [0x41, a, b]
  | .st a b => [0x42, a, b]
  | .not a => [0xA0, a]
  | .inc a => [0xA1, a]
  | .dec a => [0xA2, a]
  | .add a b => [0xC0, a, b]
  | .sub a b => [0xC1, a, b]
  | .mul a b => [0xC2, a, b]
  | .div a b => [0xC3, a, b]
  | .mod a b => [0xC4, a, b]
  | .and a b => [0xC5, a, b]
  | .or a b => [0xC6, a, b]
  | .xor a b => [0xC7, a, b]
  | .cmp a b => [0xC8, a, b]

/-- The opcode byte of an instruction, the first byte of its encoding. -/
def Instr.opcode (i : Instr) : Byte := i.encode.headD 0

/-- `N`, bits 6 and 5 of an opcode byte: the operand count (spec/30_encoding.md R50, spec/40_step_cycle.md R73). -/
def operandCount (op : Byte) : Nat := (op.extractLsb' 5 2).toNat

/-- Bit 7 of an opcode byte, the class bit A: the instruction is the ALU's (spec/30_encoding.md R52). Execution does
not use it: dispatch is on the whole byte. -/
def opcodeIsAlu (op : Byte) : Bool := decide (op.extractLsb' 7 1 = 1)

/-- Bit 4 of an opcode byte, the class bit C: the instruction may supply an explicit pc (spec/30_encoding.md R52).
Execution does not use it. -/
def opcodeMayJump (op : Byte) : Bool := decide (op.extractLsb' 4 1 = 1)

/-- Bits 3 to 0 of an opcode byte, the selector within its class (spec/30_encoding.md R52). -/
def opcodeSelector (op : Byte) : Nat := (op.extractLsb' 0 4).toNat

/-- Byte `k` of an instruction word as spec/opcode_table.json numbers its bits: bit 0 is the least significant bit of
the opcode byte and the next byte counts on from bit 8. The bits from `nbits` up are zero. -/
def tableByte (nbits w k : Nat) : Byte := BitVec.ofNat 8 ((w % 2 ^ nbits) / 2 ^ (8 * k))

/-- The instruction the decoder reads from an instruction word in the opcode table's bit numbering. -/
def decodeTableWord (nbits w : Nat) : Option Instr :=
  match decode (tableByte nbits w 0) (tableByte nbits w 1) (tableByte nbits w 2) with
  | .ok i => some i
  | .error _ => none

end Sys2Proof
end

