-- ==== Sys2Proof/Config.lean ====
section
/-! DEFINITION. What is fixed for the machine (the parameters of spec/00_scope.md R4). The opcode map, also a
parameter there, is the encoder and the decoder of Sys2Proof/Decode.lean. Nothing here is a free value: the spec
leaves no value of a step open (spec/40_step_cycle.md R82). -/

namespace Sys2Proof.Config

/-- `CAP`, the memory capacity in bytes (spec/20_memory.md R30; the spec's decision D2). -/
abbrev memCapacity : Nat := 256

/-- `SP_INIT`, the reset value of R7 (spec/10_state.md R24, the source's own value). -/
abbrev spInit : Byte := 0xF4

/-- `RESET_GPR`, the reset value of R0 to R6 (spec/10_state.md R24, R26; the spec's decision D14, log entry 8). -/
abbrev resetGpr : Byte := 0x00

/-- The address of the first instruction (spec/10_state.md R25; the spec's decision D14). -/
abbrev entryPoint : Byte := 0x00

/-- DESIGN CHOICE (log entry 1, unsafe): what a memory cell that no list entry names reads as. The spec leaves the
contents of such a cell open (`MEM_INIT`, spec/92_eei_decisions.md D16). -/
abbrev unlistedByte : Byte := 0x00

end Sys2Proof.Config
end

