-- ==== Sys2Proof/Machine/State.lean ====
section
/-! DEFINITION. The machine's state (spec/10_state.md, INVENTORY.md '## State'), the outcomes of a step, and the state
right after reset. -/

namespace Sys2Proof.Machine

/-- The three faults of spec/60_exceptions.md R200. A fault of the hardware is an event that halts it, and the model
takes it to a NEXT state (`Sys2Proof.Machine.raise`). -/
inductive FaultKind where
  /-- The opcode byte is not one of the 29 (spec/60_exceptions.md R205). -/
  | illegalOpcode
  /-- A register operand byte is 8 or more (spec/60_exceptions.md R206). -/
  | invalidRegister
  /-- The divisor of DIV or MOD is zero (spec/60_exceptions.md R207). -/
  | divZero
  deriving DecidableEq, Repr

/-- The halt cause, why `run` became 0 (spec/10_state.md R21, spec/60_exceptions.md R201). -/
inductive Cause where
  /-- The machine is running. -/
  | none
  /-- HLT halted it, which is no fault. -/
  | hlt
  | illegalOpcode
  | invalidRegister
  | divZero
  deriving DecidableEq, Repr

/-- An event of the console stream (spec/50_interfaces.md R176). -/
inductive ConsoleEvent where
  /-- `Dec(v)`, emitted by PRN. -/
  | dec (v : Byte)
  /-- `Chr(v)`, emitted by PRA. -/
  | chr (v : Byte)
  deriving DecidableEq, Repr

/-- An event of the error channel: the fault, the opcode byte and the address it was fetched from
(spec/50_interfaces.md R178). -/
structure ErrorEvent where
  kind : FaultKind
  op : Byte
  addr : Byte
  deriving DecidableEq, Repr

/-- The memory (spec/10_state.md R22, spec/20_memory.md R30): its cells as (address, byte) pairs in one canonical form
(`Memory.wf`); a cell that is not listed reads as `Config.unlistedByte` (log entry 1). -/
abbrev Memory := List Host.Cell

/-- No two neighbours of the list are out of order: addresses rise strictly. -/
def Memory.rising : Memory → Bool
  | [] => true
  | [_] => true
  | c :: d :: m => decide (c.1 < d.1) && Memory.rising (d :: m)

/-- The canonical form: addresses rise strictly, each is below the capacity, and no entry equals what an unlisted cell
reads as. -/
def Memory.wf (m : Memory) : Bool :=
  Memory.rising m && m.all fun c => decide (c.1 < Config.memCapacity) && decide (c.2 ≠ Config.unlistedByte)

/-- The complete state of the machine (spec/10_state.md). The candidate operands and the operand count of a step are
no state (spec/40_step_cycle.md R72). -/
structure State where
  /-- R0 to R7; R5 is called IM, R6 IS, R7 SP (spec/10_state.md R10, R13). -/
  regs : Vector Byte 8
  /-- The program counter (spec/10_state.md R14). -/
  pc : Byte
  /-- The instruction register: the last fetched opcode byte (spec/10_state.md R20). -/
  ir : Byte
  /-- The flags register: bit 0 equal, bit 1 greater, bit 2 less (spec/10_state.md R17). -/
  fl : Byte
  /-- The run flag: false is halted (spec/10_state.md R21). -/
  run : Bool
  /-- The halt cause (spec/10_state.md R21). -/
  cause : Cause
  /-- Code, data and stack (spec/10_state.md R22). -/
  mem : Memory
  /-- The console stream, oldest event first (spec/10_state.md R23). -/
  console : List ConsoleEvent
  /-- The error channel, oldest event first (spec/10_state.md R23). -/
  errors : List ErrorEvent
  deriving DecidableEq, Repr

/-- The reasons for which the model stops where the hardware goes on: none. The step is total and every access and
every instruction has an effect (spec/40_step_cycle.md R82, spec/20_memory.md R33; spec/93_implementation_defined.md:
nothing in this machine is stuck), and the hardware's own faults are next states (`FaultKind`). Log entry 7. -/
inductive Fault where
  deriving DecidableEq, Repr

/-- The reasons for which the model has no meaning for an instruction. -/
inductive Refusal where
  /-- Raised by an arm of `exec` for an instruction without a meaning; no arm raises it, all 29 have one. Safe: the
  model would stop where the hardware goes on. -/
  | notModelled (mnemonic : String)
  deriving DecidableEq, Repr

/-- The outcome of a step of this machine. -/
abbrev StepOutcome := Host.Outcome State Fault Refusal

/-- The state right after reset, before the loader writes (spec/10_state.md R24, spec/70_reset_and_hazards.md R230).
`State.boot` is the same state with a loaded image in memory. -/
def State.reset : State where
  regs := #v[Config.resetGpr, Config.resetGpr, Config.resetGpr, Config.resetGpr,
    Config.resetGpr, Config.resetGpr, Config.resetGpr, Config.spInit]
  pc := Config.entryPoint
  ir := 0x00
  fl := 0x00
  run := true
  cause := .none
  mem := []
  console := []
  errors := []

end Sys2Proof.Machine
end

