-- ==== Sys2Proof/Machine/Ops.lean ====
section
/-! DEFINITION. The named operations over memory, registers, the program counter, the run flag and the output streams.
Taking a fault is one of them (`raise`). There is no return beside it: a fault saves no context and the halted state is
left by reset only (spec/60_exceptions.md R208, R212); IRET does nothing (spec/45_system_io.md R162). -/

namespace Sys2Proof.Machine

/-- Reduce an exact integer to a byte: `trunc8(v) = v mod 256` (spec/00_scope.md R6). -/
def trunc8 (v : Int) : Byte := BitVec.ofInt 8 v

/-! ## Memory -/

/-- The byte listed for address `a`, or what an unlisted cell reads as. -/
def Memory.lookup : Memory → Nat → Byte
  | [], _ => Config.unlistedByte
  | c :: m, a => if c.1 = a then c.2 else Memory.lookup m a

/-- Drop the entry of address `a`. -/
def Memory.erase (a : Nat) : Memory → Memory
  | [] => []
  | c :: m => if c.1 = a then Memory.erase a m else c :: Memory.erase a m

/-- Insert an entry before the first entry of a higher address. -/
def Memory.insert (a : Nat) (v : Byte) : Memory → Memory
  | [] => [(a, v)]
  | c :: m => if a < c.1 then (a, v) :: c :: m else c :: Memory.insert a v m

/-- `MemRead(addr, 1)`: the byte at `addr mod 256`, for any natural number; it changes nothing and cannot fail
(spec/20_memory.md R31, R33). -/
def Memory.read (m : Memory) (addr : Nat) : Byte := Memory.lookup m (addr % Config.memCapacity)

/-- `MemWrite(addr, 1, v)`: set the byte at `addr mod 256` and nothing else; it cannot fail (spec/20_memory.md R32,
R33). Writing what an unlisted cell reads as removes the entry, so that equal memories are equal lists. -/
def Memory.write (m : Memory) (addr : Nat) (v : Byte) : Memory :=
  let a := addr % Config.memCapacity
  if v = Config.unlistedByte then Memory.erase a m else Memory.insert a v (Memory.erase a m)

/-- `MemRead` on the machine's memory. -/
def State.readMem (s : State) (addr : Nat) : Byte := Memory.read s.mem addr

/-- `MemWrite` on the machine's memory. -/
def State.writeMem (s : State) (addr : Nat) (v : Byte) : State := { s with mem := Memory.write s.mem addr v }

/-! ## Registers -/

/-- R7, the stack pointer (spec/10_state.md R13). -/
def spIndex : RegIndex := 7

/-- R5, called the interrupt mask: a name only, no instruction uses it implicitly (spec/60_exceptions.md R211). -/
def imIndex : RegIndex := 5

/-- R6, called the interrupt status: a name only, no instruction uses it implicitly (spec/60_exceptions.md R211). -/
def isIndex : RegIndex := 6

/-- `x[r]`. No register is hardwired (spec/10_state.md R11). -/
def State.reg (s : State) (r : RegIndex) : Byte := s.regs[r.val]

/-- `x[r] <- v`. No register discards a write (spec/10_state.md R11). -/
def State.setReg (s : State) (r : RegIndex) (v : Byte) : State := { s with regs := s.regs.set r.val v r.isLt }

/-! ## The program counter -/

/-- The next pc of an instruction that supplies none: `pc <- trunc8(pc + N + 1)` with `N = ir[6:5]`
(spec/40_step_cycle.md R73, R77). -/
def State.autoAdvance (s : State) : State := { s with pc := trunc8 (s.pc.toNat + operandCount s.ir + 1) }

/-- An explicit next pc: `pc <- target` (spec/40_step_cycle.md R77). -/
def State.jumpTo (s : State) (target : Byte) : State := { s with pc := target }

/-! ## Output and flags -/

/-- `emit console(e)` (spec/50_interfaces.md R176). -/
def State.emitConsole (s : State) (e : ConsoleEvent) : State := { s with console := s.console ++ [e] }

/-- `emit err(e)` (spec/50_interfaces.md R178). -/
def State.emitError (s : State) (e : ErrorEvent) : State := { s with errors := s.errors ++ [e] }

/-- `fl <- fl | mask`, the only way `fl` is written (spec/10_state.md R18). -/
def State.orFlags (s : State) (mask : Byte) : State := { s with fl := s.fl ||| mask }

/-! ## Halting and faults -/

/-- `run <- 0`, and why (spec/10_state.md R21). -/
def State.halt (s : State) (c : Cause) : State := { s with run := false, cause := c }

/-- The value of `cause` that a fault sets (spec/60_exceptions.md R201). -/
def FaultKind.cause : FaultKind → Cause
  | .illegalOpcode => .illegalOpcode
  | .invalidRegister => .invalidRegister
  | .divZero => .divZero

/-- The label that the table of spec/60_exceptions.md R201 gives a cause; a label only, read by nothing. -/
def Cause.code : Cause → Nat
  | .none => 0
  | .hlt => 1
  | .illegalOpcode => 2
  | .invalidRegister => 3
  | .divZero => 4

/-- `raise F(ir, pc)`, taking a fault: emit the error event with the opcode byte and its address, clear `run`, set
`cause`, write nothing else (spec/60_exceptions.md R205 to R208). `pc` still holds the opcode's address here. -/
def raise (k : FaultKind) (s : State) : State :=
  (s.emitError { kind := k, op := s.ir, addr := s.pc }).halt k.cause

/-! ## The stack -/

/-- `x[7] <- trunc8(x[7] - 1)` (spec/43_stack.md R131, R133). -/
def State.decrementSp (s : State) : State := s.setReg spIndex (trunc8 ((s.reg spIndex).toNat - 1))

/-- `x[7] <- trunc8(x[7] + 1)` (spec/43_stack.md R132, R133). -/
def State.incrementSp (s : State) : State := s.setReg spIndex (trunc8 ((s.reg spIndex).toNat + 1))

/-- The address of the top of the stack, `x[7]` (spec/43_stack.md R130). -/
def State.stackAddress (s : State) : Nat := (s.reg spIndex).toNat

end Sys2Proof.Machine
end

