-- ==== Sys2Proof/Machine/Flags.lean ====
section
/-! DEFINITION. The flag computation of CMP and the flag tests of the conditional jumps (spec/10_state.md R17 to R19,
spec/41_alu.md R112, spec/44_control_transfer.md R148). No other instruction writes or reads `fl`. -/

namespace Sys2Proof.Machine

/-- Bit 0 of `fl`, E (spec/10_state.md R17). -/
def flagEqual : Byte := 0x01
/-- Bit 1 of `fl`, G (spec/10_state.md R17). -/
def flagGreater : Byte := 0x02
/-- Bit 2 of `fl`, L (spec/10_state.md R17). -/
def flagLess : Byte := 0x04

/-- The one bit that CMP sets for the operands `x` and `y`, compared as unsigned bytes (spec/41_alu.md R112). -/
def compareFlag (x y : Byte) : Byte :=
  if x = y then flagEqual else if x.toNat > y.toNat then flagGreater else flagLess

/-- A conditional jump's test: the whole of `fl` equals `mask`; a stray bit makes it fail
(spec/44_control_transfer.md R148). -/
def State.flagsAre (s : State) (mask : Byte) : Bool := decide (s.fl = mask)

end Sys2Proof.Machine
end

