-- ==== Sys2Proof/Machine/Operands.lean ====
section
/-! DEFINITION. The operand forms: a register operand with its check, two register operands, the register-indirect
address (spec/30_encoding.md R56, spec/40_step_cycle.md R75, spec/42_load_store.md R120). The remaining form, the
literal of LDI, is the operand byte itself (spec/30_encoding.md R57). -/

namespace Sys2Proof.Machine

/-- The register an operand byte names: the whole byte, which must be 0 to 7 (spec/30_encoding.md R56). -/
def regIndex (b : Byte) : Option RegIndex := if h : b.toNat < 8 then some ⟨b.toNat, h⟩ else none

/-- Run `k` on the register that the operand byte `a` names; if it names none, take the InvalidRegister fault with `pc`
unchanged (spec/40_step_cycle.md R75, spec/60_exceptions.md R206). -/
def withReg (a : Byte) (s : State) (k : RegIndex → StepOutcome) : StepOutcome :=
  match regIndex a with
  | some r => k r
  | none => .next (raise .invalidRegister s)

/-- Two register operands: `opA` is checked before `opB` (spec/40_step_cycle.md R75). -/
def withRegs (a b : Byte) (s : State) (k : RegIndex → RegIndex → StepOutcome) : StepOutcome :=
  withReg a s fun ra => withReg b s fun rb => k ra rb

/-- The effective address of LD and ST: the value of the register, with no offset (spec/42_load_store.md R120). -/
def State.indirectAddress (s : State) (r : RegIndex) : Nat := (s.reg r).toNat

end Sys2Proof.Machine
end

