-- ==== Sys2Proof/Machine/Alu.lean ====
section
/-! DEFINITION. The ALU instructions (spec/41_alu.md). Results are computed exactly over the integers and reduced mod
256 (R100); both sources are read before the destination is written (R113); none but CMP touches `fl`. -/

namespace Sys2Proof.Machine

/-- The common shape of ADD, SUB, MUL, AND, OR, XOR: `x[a] <- f(x[a], x[b])`, then auto-advance. -/
def aluBinary (f : Byte → Byte → Byte) (a b : Byte) (s : State) : StepOutcome :=
  withRegs a b s fun ra rb => .next (s.setReg ra (f (s.reg ra) (s.reg rb))).autoAdvance

/-- The common shape of NOT, INC, DEC: `x[a] <- f(x[a])`, then auto-advance. -/
def aluUnary (f : Byte → Byte) (a : Byte) (s : State) : StepOutcome :=
  withReg a s fun ra => .next (s.setReg ra (f (s.reg ra))).autoAdvance

/-- The common shape of DIV and MOD: a zero divisor takes the DivZero fault and leaves `x[a]`; either way the
instruction supplies no explicit pc, so `pc` advances (spec/60_exceptions.md R207, spec/40_step_cycle.md R77). -/
def aluDivide (f : Byte → Byte → Byte) (a b : Byte) (s : State) : StepOutcome :=
  withRegs a b s fun ra rb =>
    if s.reg rb = 0 then .next (raise .divZero s).autoAdvance
    else .next (s.setReg ra (f (s.reg ra) (s.reg rb))).autoAdvance

/-- The exact sum, reduced (R101). -/
def aluAdd (x y : Byte) : Byte := trunc8 (x.toNat + y.toNat)
/-- The exact difference, reduced (R102). -/
def aluSub (x y : Byte) : Byte := trunc8 (x.toNat - y.toNat)
/-- The exact product, reduced (R103). -/
def aluMul (x y : Byte) : Byte := trunc8 (x.toNat * y.toNat)
/-- One more, reduced (R106). -/
def aluInc (x : Byte) : Byte := trunc8 (x.toNat + 1)
/-- One less, reduced (R107). -/
def aluDec (x : Byte) : Byte := trunc8 (x.toNat - 1)
/-- The floor of the exact quotient of the unsigned values (R104, the spec's decision D5). -/
def aluDiv (x y : Byte) : Byte := BitVec.ofNat 8 (x.toNat / y.toNat)
/-- The remainder of the unsigned values (R105, the spec's decision D5). -/
def aluMod (x y : Byte) : Byte := BitVec.ofNat 8 (x.toNat % y.toNat)

/-- ADD: `x[a] <- trunc8(x[a] + x[b])` (R101). -/
def execAdd (a b : Byte) (s : State) : StepOutcome := aluBinary aluAdd a b s

/-- SUB: `x[a] <- trunc8(x[a] - x[b])` (R102). -/
def execSub (a b : Byte) (s : State) : StepOutcome := aluBinary aluSub a b s

/-- MUL: `x[a] <- trunc8(x[a] * x[b])` (R103). -/
def execMul (a b : Byte) (s : State) : StepOutcome := aluBinary aluMul a b s

/-- DIV: `x[a] <- x[a] / x[b]`, or DivZero (R104). -/
def execDiv (a b : Byte) (s : State) : StepOutcome := aluDivide aluDiv a b s

/-- MOD: `x[a] <- x[a] mod x[b]`, or DivZero (R105). -/
def execMod (a b : Byte) (s : State) : StepOutcome := aluDivide aluMod a b s

/-- AND: bit by bit (R108). -/
def execAnd (a b : Byte) (s : State) : StepOutcome := aluBinary (fun x y => x &&& y) a b s

/-- OR: bit by bit (R109). -/
def execOr (a b : Byte) (s : State) : StepOutcome := aluBinary (fun x y => x ||| y) a b s

/-- XOR: bit by bit (R110). -/
def execXor (a b : Byte) (s : State) : StepOutcome := aluBinary (fun x y => x ^^^ y) a b s

/-- NOT: the 8-bit complement (R111). -/
def execNot (a : Byte) (s : State) : StepOutcome := aluUnary (fun x => ~~~x) a s

/-- INC: `x[a] <- trunc8(x[a] + 1)` (R106). -/
def execInc (a : Byte) (s : State) : StepOutcome := aluUnary aluInc a s

/-- DEC: `x[a] <- trunc8(x[a] - 1)` (R107). -/
def execDec (a : Byte) (s : State) : StepOutcome := aluUnary aluDec a s

/-- CMP: OR the outcome bit of the unsigned comparison onto `fl`; no register is written (R112). -/
def execCmp (a b : Byte) (s : State) : StepOutcome :=
  withRegs a b s fun ra rb => .next (s.orFlags (compareFlag (s.reg ra) (s.reg rb))).autoAdvance

end Sys2Proof.Machine
end

