-- ==== Sys2Proof/Machine/Stack.lean ====
section
/-! DEFINITION. The stack instructions (spec/43_stack.md) and the two stack accesses they share with CALL and RET: push
pre-decrements the stack pointer and then writes, pop reads and then post-increments (R130). No overflow or underflow
check (R131, R132). -/

namespace Sys2Proof.Machine

/-- The state in which a push writes: the stack pointer decremented (R131). -/
def State.pushReady (s : State) : State := s.decrementSp

/-- Write `v` at the top of the stack; the stack pointer is already decremented (R131). -/
def State.writeTop (s : State) (v : Byte) : State := s.writeMem s.stackAddress v

/-- The byte at the top of the stack, which a pop reads before it increments the stack pointer (R132). -/
def State.readTop (s : State) : Byte := s.readMem s.stackAddress

/-- PUSH. The register is read after the decrement, so `PUSH r7` stores the decremented stack pointer (R131, the
spec's decision D17). -/
def execPush (a : Byte) (s : State) : StepOutcome :=
  withReg a s fun ra => .next (s.pushReady.writeTop (s.pushReady.reg ra)).autoAdvance

/-- POP. The destination is written last, so `POP r7` leaves the popped byte in the stack pointer (R132, the spec's
decision D17). -/
def execPop (a : Byte) (s : State) : StepOutcome :=
  withReg a s fun ra => .next (s.incrementSp.setReg ra s.readTop).autoAdvance

end Sys2Proof.Machine
end

