-- ==== Sys2Proof/Machine/Control.lean ====
section
/-! DEFINITION. The control-transfer instructions (spec/44_control_transfer.md). Every target is the value of a
register, used as an absolute address (R140); there is no delay slot (spec/40_step_cycle.md R81). -/

namespace Sys2Proof.Machine

/-- The return address of a CALL: `trunc8(pc + 2)`, `pc` the address of the CALL's opcode (R141). -/
def State.returnAddress (s : State) : Byte := trunc8 (s.pc.toNat + 2)

/-- The common shape of JEQ, JNE, JGT, JLT: jump to `x[a]` if the whole of `fl` equals `mask`, else auto-advance. The
register operand is checked either way (R144 to R148, spec/40_step_cycle.md R75). -/
def jumpIfFlagsAre (mask a : Byte) (s : State) : StepOutcome :=
  withReg a s fun ra => .next (if s.flagsAre mask then s.jumpTo (s.reg ra) else s.autoAdvance)

/-- CALL. The target is read after the push, so `CALL r7` jumps to the decremented stack pointer (R141, the spec's
decision D17). -/
def execCall (a : Byte) (s : State) : StepOutcome :=
  withReg a s fun ra =>
    let pushed := s.pushReady.writeTop s.returnAddress
    .next (pushed.jumpTo (pushed.reg ra))

/-- RET: pop a byte and jump to it (R142). -/
def execRet (s : State) : StepOutcome := .next (s.incrementSp.jumpTo s.readTop)

/-- JMP: `pc <- x[a]` (R143). -/
def execJmp (a : Byte) (s : State) : StepOutcome := withReg a s fun ra => .next (s.jumpTo (s.reg ra))

/-- JEQ: jump if `fl = 0x01` (R144). -/
def execJeq (a : Byte) (s : State) : StepOutcome := jumpIfFlagsAre flagEqual a s

/-- JNE: jump if `fl = 0x00`, that is if no CMP has executed since reset (R145). -/
def execJne (a : Byte) (s : State) : StepOutcome := jumpIfFlagsAre 0x00 a s

/-- JGT: jump if `fl = 0x02` (R146). -/
def execJgt (a : Byte) (s : State) : StepOutcome := jumpIfFlagsAre flagGreater a s

/-- JLT: jump if `fl = 0x04` (R147). -/
def execJlt (a : Byte) (s : State) : StepOutcome := jumpIfFlagsAre flagLess a s

end Sys2Proof.Machine
end

