-- ==== Sys2Proof/Machine/LoadStore.lean ====
section
/-! DEFINITION. The load and store instructions (spec/42_load_store.md). One byte, no offset, no address can fault
(R120). -/

namespace Sys2Proof.Machine

/-- LDI: `x[a] <- lit`; every byte is a legal literal and none is checked (R121). -/
def execLdi (a lit : Byte) (s : State) : StepOutcome :=
  withReg a s fun ra => .next (s.setReg ra lit).autoAdvance

/-- LD: `x[a] <- MemRead(x[b], 1)` (R122). -/
def execLd (a b : Byte) (s : State) : StepOutcome :=
  withRegs a b s fun ra rb => .next (s.setReg ra (s.readMem (s.indirectAddress rb))).autoAdvance

/-- ST: `MemWrite(x[a], 1, x[b])`; the FIRST operand is the address register (R123). -/
def execSt (a b : Byte) (s : State) : StepOutcome :=
  withRegs a b s fun ra rb => .next (s.writeMem (s.indirectAddress ra) (s.reg rb)).autoAdvance

end Sys2Proof.Machine
end

