-- ==== Sys2Proof/Machine/System.lean ====
section
/-! DEFINITION. The system and output instructions (spec/45_system_io.md). -/

namespace Sys2Proof.Machine

/-- HLT: halt with cause Hlt, emit nothing; it supplies no explicit pc, so `pc` ends one past it (R160, the spec's
decision D12). -/
def execHlt (s : State) : StepOutcome := .next (s.halt .hlt).autoAdvance

/-- NOP: only the auto-advance (R161). -/
def execNop (s : State) : StepOutcome := .next s.autoAdvance

/-- IRET: a placeholder that behaves exactly as NOP; it pops nothing and re-enables nothing (R162). -/
def execIret (s : State) : StepOutcome := .next s.autoAdvance

/-- PRN: `emit console(Dec(x[a]))` (R163). -/
def execPrn (a : Byte) (s : State) : StepOutcome :=
  withReg a s fun ra => .next (s.emitConsole (.dec (s.reg ra))).autoAdvance

/-- PRA: `emit console(Chr(x[a]))` (R164). -/
def execPra (a : Byte) (s : State) : StepOutcome :=
  withReg a s fun ra => .next (s.emitConsole (.chr (s.reg ra))).autoAdvance

end Sys2Proof.Machine
end

