-- ==== Sys2Proof/Machine/Fetch.lean ====
section
/-! DEFINITION. The fetch and decode actions of a step (spec/40_step_cycle.md R71 to R74), and placing an instruction's
bytes where the next step fetches. -/

namespace Sys2Proof.Machine

/-- Step action 1: `ir <- MemRead(pc, 1)`, before the byte is known to be legal (R71). -/
def State.fetchOpcode (s : State) : State := { s with ir := s.readMem s.pc.toNat }

/-- Step action 2: the first candidate operand, `MemRead(pc + 1, 1)`; the memory wraps the address (R72). -/
def State.operandA (s : State) : Byte := s.readMem (s.pc.toNat + 1)

/-- Step action 2: the second candidate operand, `MemRead(pc + 2, 1)` (R72). -/
def State.operandB (s : State) : Byte := s.readMem (s.pc.toNat + 2)

/-- Step actions 4 and 5, once the opcode byte is in `ir`: look it up, with the two candidate operands (R74). -/
def State.decodeFetched (s : State) : Except DecodeError Instr := decode s.ir s.operandA s.operandB

/-- Write a byte list to consecutive addresses, the first at `addr`, in ascending order; the memory wraps each
address (spec/20_memory.md R32, spec/50_interfaces.md R174). -/
def Memory.writeBytes (m : Memory) (addr : Nat) : List Byte → Memory
  | [] => m
  | v :: vs => Memory.writeBytes (Memory.write m addr v) (addr + 1) vs

/-- The three bytes that a step fetches, for an instruction word in the opcode table's bit numbering. -/
def tableBytes (nbits w : Nat) : List Byte := [tableByte nbits w 0, tableByte nbits w 1, tableByte nbits w 2]

end Sys2Proof.Machine
end

