-- ==== Sys2Proof/Machine/Step.lean ====
section
/-! DEFINITION. One step of the machine (spec/40_step_cycle.md R79), and placing an instruction where the next step
fetches it. -/

namespace Sys2Proof.Machine

/-- `Step()` of spec/40_step_cycle.md R79. A halted machine does nothing (R70). A running one fetches the opcode into
`ir`, decodes, takes IllegalOpcode where no instruction is found, and else executes; the register-operand check of R75
and the next pc of R77 are in the instruction's meaning. -/
def step (s : State) : Host.Outcome State Fault Refusal :=
  if s.run then
    match s.fetchOpcode.decodeFetched with
    | .ok i => exec i s.fetchOpcode
    | .error _ => .next (raise .illegalOpcode s.fetchOpcode)
  else .next s

/-- `s` with the instruction word `w` (opcode-table bit numbering, `nbits` bits, zero above) in memory at `pc` and the
two addresses after it, and with the engine running, so that the very next step runs that instruction. It stands for
the loader (spec/50_interfaces.md R174; log entry 4). -/
def State.withFetchWord (s : State) (nbits w : Nat) : State :=
  { s with mem := Memory.writeBytes s.mem s.pc.toNat (tableBytes nbits w), run := true, cause := .none }

end Sys2Proof.Machine
end

