-- ==== Sys2Proof/Machine/Boot.lean ====
section
/-! DEFINITION. Reset with the loader's image in memory: the state in which the first tick finds the machine
(spec/70_reset_and_hazards.md R230, R232). -/

namespace Sys2Proof.Machine

/-- The loader: byte `k` of the program to address `k`, ascending; a byte past the capacity wraps and overwrites
(spec/50_interfaces.md R174). -/
def loadProgram (image : List Byte) (m : Memory) : Memory := Memory.writeBytes m 0 image

/-- The reset state with `MEM_INIT` in memory. An image of 256 bytes fixes every cell, so every `MEM_INIT` is the
memory of some image (spec/10_state.md R22, R24; spec/92_eei_decisions.md D16). -/
def State.boot (image : List Byte) : State := { State.reset with mem := loadProgram image [] }

end Sys2Proof.Machine
end

