-- ==== Sys2Proof/Machine/Environment.lean ====
section
/-! DEFINITION. What the outside world can do to the machine: tick it and reset it, each between steps
(spec/50_interfaces.md R170 to R175, R179 to R181). No event writes memory or registers during a run (R175). -/

namespace Sys2Proof.Machine

/-- The inputs of the core. -/
inductive ExternalEvent where
  /-- A request for one step (spec/50_interfaces.md R170). -/
  | tick
  /-- Reset, after which the loader has written `image` (spec/50_interfaces.md R172, R174). -/
  | reset (image : List Byte)
  deriving DecidableEq, Repr

/-- The core's response to an input. Reset drops the state, the streams included (spec/10_state.md R27). -/
def respond (e : ExternalEvent) (s : State) : StepOutcome :=
  match e with
  | .tick => step s
  | .reset image => .next (State.boot image)

/-- The response to a sequence of inputs, first one first; it ends at the first outcome that is no next state. -/
def respondAll : List ExternalEvent → State → StepOutcome
  | [], s => .next s
  | e :: es, s =>
    match respond e s with
    | .next t => respondAll es t
    | .fault f => .fault f
    | .refused r => .refused r

end Sys2Proof.Machine
end

