-- ==== Sys2Proof/Safety.lean ====
section
/-! DEFINITION. The terms in which claims speak of the machine: what counts as gone wrong, the invariant of a run, and
which registers and which byte of memory an instruction may change. -/

namespace Sys2Proof.Machine

/-- The machine halted on a fault (spec/60_exceptions.md R219). -/
def State.goneWrong (s : State) : Bool :=
  match s.cause with
  | .none => false
  | .hlt => false
  | .illegalOpcode => true
  | .invalidRegister => true
  | .divZero => true

/-- The machine halted on HLT (spec/60_exceptions.md R219). -/
def State.haltedCleanly (s : State) : Bool := !s.run && decide (s.cause = .hlt)

/-- Bits 7 to 3 of `fl` are 0 (spec/10_state.md R17). -/
def State.flagsLegal (s : State) : Bool := decide (s.fl.toNat < 8)

/-- `run`, `cause`, `ir`, `pc` and the error channel tell one story, the table of spec/60_exceptions.md R201: no error
event but of a fault, at most one, naming the opcode byte still in `ir` and the address it was fetched from. -/
def State.haltRecord (s : State) : Bool :=
  match s.cause with
  | .none => s.run && decide (s.errors = [])
  | .hlt => !s.run && decide (s.errors = []) && decide (s.ir = 0x01)
  | .illegalOpcode => !s.run && decide (s.errors = [⟨.illegalOpcode, s.ir, s.pc⟩])
  | .invalidRegister => !s.run && decide (s.errors = [⟨.invalidRegister, s.ir, s.pc⟩])
  | .divZero => !s.run && decide (s.errors = [⟨.divZero, s.ir, s.pc - 3⟩]) && decide (s.ir = 0xC3 ∨ s.ir = 0xC4)

/-- The invariant of a run: the memory is in its canonical form, the flags are legal, the halt record is consistent. -/
def State.inv (s : State) : Bool := Memory.wf s.mem && s.flagsLegal && s.haltRecord

/-- Register `n` is one that the instruction may change: its destination, and R7 where the instruction uses the stack
(spec/10_state.md R13, spec/41_alu.md, spec/42_load_store.md, spec/43_stack.md). -/
def mayWriteReg (i : Instr) (n : Nat) : Bool :=
  match i with
  | .nop | .hlt | .iret | .prn _ | .pra _ | .jmp _ | .jeq _ | .jne _ | .jgt _ | .jlt _ | .st _ _ | .cmp _ _ => false
  | .ret | .push _ | .call _ => decide (n = 7)
  | .pop a => decide (n = 7) || decide (n = a.toNat)
  | .ldi a _ | .ld a _ | .not a | .inc a | .dec a => decide (n = a.toNat)
  | .add a _ | .sub a _ | .mul a _ | .div a _ | .mod a _ | .and a _ | .or a _ | .xor a _ => decide (n = a.toNat)

/-- The address the instruction stores its one byte to, by the functions its meaning uses; none for a form that stores
nothing (spec/20_memory.md R35). -/
def storeTarget (i : Instr) (s : State) : Option Nat :=
  match i with
  | .st a _ => (regIndex a).map s.indirectAddress
  | .push _ | .call _ => some s.pushReady.stackAddress
  | .nop | .hlt | .iret | .ret | .prn _ | .pra _ | .pop _ | .jmp _ | .jeq _ | .jne _ | .jgt _ | .jlt _ => none
  | .ldi _ _ | .ld _ _ | .not _ | .inc _ | .dec _ | .cmp _ _ => none
  | .add _ _ | .sub _ _ | .mul _ _ | .div _ _ | .mod _ _ | .and _ _ | .or _ _ | .xor _ _ => none

/-- The instructions that can supply an explicit pc (spec/44_control_transfer.md); every other one auto-advances or halts
the machine (spec/30_encoding.md R52, field C). -/
def isControlTransfer (i : Instr) : Bool :=
  match i with
  | .call _ | .ret | .jmp _ | .jeq _ | .jne _ | .jgt _ | .jlt _ => true
  | .nop | .hlt | .iret | .prn _ | .pra _ | .push _ | .pop _ | .ldi _ _ | .ld _ _ | .st _ _ => false
  | .not _ | .inc _ | .dec _ | .add _ _ | .sub _ _ | .mul _ _ | .div _ _ | .mod _ _ => false
  | .and _ _ | .or _ _ | .xor _ _ | .cmp _ _ => false

/-- The instructions of the ALU (spec/41_alu.md; spec/30_encoding.md R52, field A). -/
def isAlu (i : Instr) : Bool :=
  match i with
  | .not _ | .inc _ | .dec _ | .add _ _ | .sub _ _ | .mul _ _ | .div _ _ | .mod _ _ => true
  | .and _ _ | .or _ _ | .xor _ _ | .cmp _ _ => true
  | .nop | .hlt | .iret | .ret | .prn _ | .pra _ | .push _ | .pop _ | .call _ => false
  | .jmp _ | .jeq _ | .jne _ | .jgt _ | .jlt _ | .ldi _ _ | .ld _ _ | .st _ _ => false

/-- The address past the instruction whose opcode byte is in `ir`, in byte arithmetic: `pc + N + 1` with `N` in bits 6
and 5 of `ir` (spec/40_step_cycle.md R73, R77). -/
def nextAddress (s : State) : Byte := s.pc + ((s.ir >>> 5) &&& 0x03) + 1

/-- The 29 legal opcode bytes, listed as spec/95_test_vectors.md lists them for a decoder test. -/
def legalOpcodes : List Byte :=
  [0x00, 0x01, 0x02, 0x10] ++ [0x20, 0x21, 0x22, 0x23] ++ [0x30, 0x31, 0x32, 0x33, 0x34, 0x35] ++
  [0x40, 0x41, 0x42] ++ [0xA0, 0xA1, 0xA2] ++ [0xC0, 0xC1, 0xC2, 0xC3, 0xC4, 0xC5, 0xC6, 0xC7, 0xC8]

end Sys2Proof.Machine
end

