-- ==== Sys2Proof/Certificates/Slice0/Obligations.lean ====
section
/-! DEFINITION. The statements for the provers. Each says in its docstring what it states; where a clause is a decision of
the spec rather than the source's word, the docstring names the decision (spec/92_eei_decisions.md) and the log entry.

In a statement about `exec`, the address past the instruction is `nextAddress`, which takes the operand count from `ir`
(spec/40_step_cycle.md R73, R77; log entry 13, DESIGN CHOICE). A step runs `exec` with the fetched opcode byte in `ir`
(`Obligations.StepRunsTheDecodedInstruction`), where that is the instruction's own length. -/

open Sys2Proof Sys2Proof.Machine

/-- Words written out from the opcode map decode to their instructions. One word of each format and family, written out
from the opcode map, decodes to the instruction it stands for, with each operand byte in its place; four unassigned
bytes do not decode. The byte values are the spec's own assignment, decision D1 (log entry 2). -/
def Obligations.OpcodeMapWordsDecode : Prop :=
  decode 0x01 0xFF 0xFF = .ok .hlt ∧ decode 0x10 0xFF 0xFF = .ok .ret ∧
  decode 0x21 0x03 0xFF = .ok (.pra 3) ∧ decode 0x22 0x07 0xFF = .ok (.push 7) ∧
  decode 0x30 0x01 0xFF = .ok (.call 1) ∧ decode 0x35 0x02 0xFF = .ok (.jlt 2) ∧
  decode 0x40 0x03 0xFF = .ok (.ldi 3 255) ∧ decode 0x41 0x00 0x01 = .ok (.ld 0 1) ∧
  decode 0x42 0x00 0x01 = .ok (.st 0 1) ∧ decode 0xA2 0x06 0xFF = .ok (.dec 6) ∧
  decode 0xC1 0x05 0x04 = .ok (.sub 5 4) ∧ decode 0xC8 0x00 0x01 = .ok (.cmp 0 1) ∧
  decode 0x03 0x00 0x00 = .error (.illegalOpcode 0x03) ∧ decode 0x60 0x00 0x00 = .error (.illegalOpcode 0x60) ∧
  decode 0x80 0x00 0x00 = .error (.illegalOpcode 0x80) ∧ decode 0xFF 0x09 0x09 = .error (.illegalOpcode 0xFF)

/-- Decoding is the inverse of encoding, in both directions. For every instruction, with every operand at every byte, and
every three fetched bytes: the decoder answers that instruction exactly if the instruction's encoding is a prefix of
the three bytes. So decoding an encoded instruction gives it back whatever bytes follow, and what is decoded encodes
to the bytes it was decoded from. The byte values are the spec's own assignment, decision D1 (log entry 2). -/
def Obligations.DecodeIffEncodingIsPrefix : Prop :=
  ∀ (i : Instr) (op a b : Byte), decode op a b = .ok i ↔ i.encode <+: [op, a, b]

/-- An opcode byte is refused exactly if it is not one of the 29. For every opcode byte and operand bytes: the decoder
refuses, naming the opcode byte, exactly if the byte is not one of the 29 of the opcode map; so all bytes with bits
6:5 = 3 are refused and no operand byte makes a legal opcode illegal. The byte values are the spec's own assignment,
decision D1 (log entry 2). -/
def Obligations.UnlistedOpcodesAreExactlyTheIllegalOnes : Prop :=
  ∀ op a b : Byte, decode op a b = .error (.illegalOpcode op) ↔ op ∉ legalOpcodes

/-- Operand bytes an instruction does not use have no effect on it. For every opcode byte: if its operand count is 0,
what is decoded does not depend on either candidate operand byte, and if it is 1, not on the second; so the unused
bytes reach neither the register check nor the execution. -/
def Obligations.UnusedOperandBytesAreIgnored : Prop :=
  ∀ op a b a' b' : Byte,
    (operandCount op = 0 → decode op a b = decode op a' b') ∧
    (operandCount op = 1 → decode op a b = decode op a b')

/-- An instruction's bytes placed at pc, wherever pc is, make the next step run it. For every instruction and every
running state: with the instruction's encoding written at pc and the addresses after it, each taken mod 256, the next
step is the instruction's own effect in that state with its opcode byte in ir. It holds at every pc, the wrap past
255 included, whatever else memory holds. The byte values are the spec's own assignment, decision D1 (log entry 2);
that the memory has 256 cells is its decision D2 (log entry 3). -/
def Obligations.EncodedInstructionInMemoryRuns : Prop :=
  ∀ (i : Instr) (s : State), s.run = true →
    step { s with mem := Memory.writeBytes s.mem s.pc.toNat i.encode } =
      exec i { s with mem := Memory.writeBytes s.mem s.pc.toNat i.encode, ir := i.opcode }

/-- A step of a running machine is the decoded instruction, with its opcode byte in ir. In every running state whose
bytes at pc, pc + 1 and pc + 2 (each mod 256) decode to an instruction, the step is exec of that instruction in the
same state with the byte at pc in ir; nothing else is added around exec. That the memory has 256 cells is the spec's
decision D2 (log entry 3). -/
def Obligations.StepRunsTheDecodedInstruction : Prop :=
  ∀ (s : State) (i : Instr), s.run = true →
    decode (Memory.read s.mem s.pc.toNat) (Memory.read s.mem (s.pc.toNat + 1)) (Memory.read s.mem (s.pc.toNat + 2)) =
      .ok i →
    step s = exec i { s with ir := Memory.read s.mem s.pc.toNat }

/-- An illegal opcode halts the machine at its own address and reports it. In every running state whose byte at pc is not
one of the 29 opcodes, the step writes that byte to ir, emits IllegalOpcode with that byte and pc on the error
channel, clears run, sets cause to IllegalOpcode, and leaves pc and everything else as they were. That it reports at
all, and that pc stays, is the spec's decision D9 (log entry 11). -/
def Obligations.UnlistedOpcodeHalts : Prop :=
  ∀ s : State, s.run = true → Memory.read s.mem s.pc.toNat ∉ legalOpcodes →
    step s = .next { s with
      ir := Memory.read s.mem s.pc.toNat, run := false, cause := .illegalOpcode,
      errors := s.errors ++ [⟨.illegalOpcode, Memory.read s.mem s.pc.toNat, s.pc⟩] }

/-- Every instruction with a register operand above 7 takes InvalidRegister and does nothing else. For every instruction,
in every state: if one of the operand bytes it uses as a register index is 8 or more, it emits InvalidRegister with
ir and pc, clears run, sets cause, and changes nothing else, pc included; an untaken conditional jump and a division
by zero are no exception. The spec's own decision D10 (log entry 10). -/
def Obligations.InvalidRegisterOperandHalts : Prop :=
  ∀ (i : Instr) (s : State), i.wellFormed = false →
    exec i s = .next { s with
      run := false, cause := .invalidRegister, errors := s.errors ++ [⟨.invalidRegister, s.ir, s.pc⟩] }

/-- IllegalOpcode before InvalidRegister before DivZero. Every step of a running machine answers a next state, whose
cause is IllegalOpcode if the opcode byte is not one of the 29 whatever its operands; else InvalidRegister if a
register operand is 8 or more, also for DIV and MOD with a zero divisor; else DivZero for DIV and MOD with a zero
divisor. The order is the spec's decision D10 (log entry 10). -/
def Obligations.FaultsHaveOnePriority : Prop :=
  ∀ s : State, s.run = true → ∃ t : State, step s = .next t ∧
    (Memory.read s.mem s.pc.toNat ∉ legalOpcodes → t.cause = .illegalOpcode) ∧
    ∀ i : Instr,
      decode (Memory.read s.mem s.pc.toNat) (Memory.read s.mem (s.pc.toNat + 1))
        (Memory.read s.mem (s.pc.toNat + 2)) = .ok i →
      (i.wellFormed = false → t.cause = .invalidRegister) ∧
      ∀ (a b : Byte) (_ : a.toNat < 8) (hb : b.toNat < 8), (i = .div a b ∨ i = .mod a b) →
        s.regs[b.toNat] = 0 → t.cause = .divZero

/-- ADD, SUB and MUL write the exact result mod 256 to the first register and nothing else. In every state and for all
register operands: the first register becomes the sum, difference or product of the two old values as unsigned
integers, reduced mod 256; pc moves past the instruction; every other register, fl, memory, run, cause and both
streams are as before. That the result is reduced is the spec's decision D4 (log entry 9). -/
def Obligations.AddSubMulResults : Prop :=
  ∀ (s : State) (a b : Byte) (ha : a.toNat < 8) (hb : b.toNat < 8),
    exec (.add a b) s = .next { s with
      regs := s.regs.set a.toNat (BitVec.ofNat 8 (s.regs[a.toNat].toNat + s.regs[b.toNat].toNat)), pc := nextAddress s } ∧
    exec (.sub a b) s = .next { s with
      regs := s.regs.set a.toNat (BitVec.ofNat 8 (s.regs[a.toNat].toNat + 256 - s.regs[b.toNat].toNat)),
      pc := nextAddress s } ∧
    exec (.mul a b) s = .next { s with
      regs := s.regs.set a.toNat (BitVec.ofNat 8 (s.regs[a.toNat].toNat * s.regs[b.toNat].toNat)), pc := nextAddress s }

/-- AND, OR and XOR combine the two registers bit by bit into the first and change nothing else. In every state and for
all register operands: the instruction answers a next state in which bit k of the first register is the and, or,
exclusive-or of bit k of the two old values, for each k from 0 to 7; pc moves past the instruction and everything
else is as before. -/
def Obligations.BitwiseResults : Prop :=
  ∀ (s : State) (a b : Byte) (ha : a.toNat < 8) (hb : b.toNat < 8), ∃ x y z : Byte,
    exec (.and a b) s = .next { s with regs := s.regs.set a.toNat x, pc := nextAddress s } ∧
    exec (.or a b) s = .next { s with regs := s.regs.set a.toNat y, pc := nextAddress s } ∧
    exec (.xor a b) s = .next { s with regs := s.regs.set a.toNat z, pc := nextAddress s } ∧
    ∀ k, k < 8 →
      x.getLsbD k = (s.regs[a.toNat].getLsbD k && s.regs[b.toNat].getLsbD k) ∧
      y.getLsbD k = (s.regs[a.toNat].getLsbD k || s.regs[b.toNat].getLsbD k) ∧
      z.getLsbD k = (s.regs[a.toNat].getLsbD k ^^ s.regs[b.toNat].getLsbD k)

/-- NOT, INC and DEC replace one register by 255 minus it, by one more, by one less, mod 256. In every state and for
every register operand: NOT writes 255 minus the old value, INC the old value plus 1 mod 256, DEC the old value minus
1 mod 256; pc moves past the instruction and everything else, fl included, is as before. NOT within 8 bits is the
spec's decision D4 (log entry 9). -/
def Obligations.NotIncDecResults : Prop :=
  ∀ (s : State) (a : Byte) (ha : a.toNat < 8),
    exec (.not a) s = .next { s with
      regs := s.regs.set a.toNat (BitVec.ofNat 8 (255 - s.regs[a.toNat].toNat)), pc := nextAddress s } ∧
    exec (.inc a) s = .next { s with
      regs := s.regs.set a.toNat (BitVec.ofNat 8 (s.regs[a.toNat].toNat + 1)), pc := nextAddress s } ∧
    exec (.dec a) s = .next { s with
      regs := s.regs.set a.toNat (BitVec.ofNat 8 (s.regs[a.toNat].toNat + 255)), pc := nextAddress s }

/-- DIV and MOD by a non-zero divisor write quotient and remainder of the unsigned values. In every state and for all
register operands with a non-zero divisor: DIV writes the floor of the quotient and MOD the remainder of the old
values as unsigned integers to the first register; pc moves past the instruction and everything else is as before.
The rounding is the spec's decision D5 (log entry 9). -/
def Obligations.DivModResults : Prop :=
  ∀ (s : State) (a b : Byte) (ha : a.toNat < 8) (hb : b.toNat < 8), s.regs[b.toNat] ≠ 0 →
    exec (.div a b) s = .next { s with
      regs := s.regs.set a.toNat (s.regs[a.toNat] / s.regs[b.toNat]), pc := nextAddress s } ∧
    exec (.mod a b) s = .next { s with
      regs := s.regs.set a.toNat (s.regs[a.toNat] % s.regs[b.toNat]), pc := nextAddress s }

/-- DIV and MOD by zero report, halt, write no register, and still move pc past themselves. In every state and for all
register operands with a zero divisor: the instruction emits DivZero with ir and its own address, clears run, sets
cause to DivZero, moves pc past itself and changes nothing else. Where pc ends and that MOD leaves its register are
the spec's decisions D13 and D23 (log entry 11). -/
def Obligations.DivModByZeroHalts : Prop :=
  ∀ (s : State) (a b : Byte) (_ : a.toNat < 8) (hb : b.toNat < 8) (i : Instr), (i = .div a b ∨ i = .mod a b) →
    s.regs[b.toNat] = 0 →
    exec i s = .next { s with
      run := false, cause := .divZero, errors := s.errors ++ [⟨.divZero, s.ir, s.pc⟩], pc := nextAddress s }

/-- What DIV and MOD write satisfies quotient times divisor plus remainder equals dividend. In every state and for all
register operands with a non-zero divisor, DIV and MOD both answer a next state, and the value q that DIV leaves in
the first register and the value r that MOD leaves there satisfy q * divisor + r = dividend and r < divisor, as exact
integers. The definition of the two is the spec's decision D5 (log entry 9). -/
def Obligations.QuotientAndRemainderReconstruct : Prop :=
  ∀ (s : State) (a b : Byte) (ha : a.toNat < 8) (hb : b.toNat < 8), s.regs[b.toNat] ≠ 0 →
    ∃ t u : State, exec (.div a b) s = .next t ∧ exec (.mod a b) s = .next u ∧
      t.regs[a.toNat].toNat * s.regs[b.toNat].toNat + u.regs[a.toNat].toNat = s.regs[a.toNat].toNat ∧
      u.regs[a.toNat].toNat < s.regs[b.toNat].toNat

/-- CMP ORs E, G or L onto fl by unsigned comparison and changes nothing else but pc. In every state and for all register
operands: fl becomes the old fl OR 1 if the values are equal, OR 2 if the left is greater as an unsigned byte, OR 4
if it is less; no register is written; pc moves past the instruction and everything else is as before. Unsigned
comparison is the spec's decision D6; that fl is not cleared first is the source's behaviour, kept in its decision D7
(log entry 9). -/
def Obligations.CompareOrsOneOutcomeBit : Prop :=
  ∀ (s : State) (a b : Byte) (ha : a.toNat < 8) (hb : b.toNat < 8),
    exec (.cmp a b) s = .next { s with
      fl := s.fl ||| (if s.regs[a.toNat] = s.regs[b.toNat] then 0x01
        else if s.regs[b.toNat].toNat < s.regs[a.toNat].toNat then 0x02 else 0x04),
      pc := nextAddress s }

/-- A two-operand ALU instruction naming one register twice works on two copies of its old value. In every state and for
every register named twice: ADD doubles mod 256, SUB and XOR clear, MUL squares mod 256, AND and OR keep, CMP sets E,
and with a non-zero value DIV gives 1 and MOD gives 0; each answers a next state with pc past the instruction and
nothing else changed. That ADD and MUL are reduced mod 256 is the spec's decision D4, that DIV and MOD are of
integers its decision D5 (log entry 9). -/
def Obligations.EqualOperandRegistersUseOldValueTwice : Prop :=
  ∀ (s : State) (a : Byte) (ha : a.toNat < 8),
    exec (.add a a) s = .next { s with regs := s.regs.set a.toNat (2 * s.regs[a.toNat]), pc := nextAddress s } ∧
    exec (.sub a a) s = .next { s with regs := s.regs.set a.toNat 0, pc := nextAddress s } ∧
    exec (.xor a a) s = .next { s with regs := s.regs.set a.toNat 0, pc := nextAddress s } ∧
    exec (.mul a a) s = .next { s with
      regs := s.regs.set a.toNat (s.regs[a.toNat] * s.regs[a.toNat]), pc := nextAddress s } ∧
    exec (.and a a) s = .next { s with pc := nextAddress s } ∧
    exec (.or a a) s = .next { s with pc := nextAddress s } ∧
    exec (.cmp a a) s = .next { s with fl := s.fl ||| 0x01, pc := nextAddress s } ∧
    (s.regs[a.toNat] ≠ 0 →
      exec (.div a a) s = .next { s with regs := s.regs.set a.toNat 1, pc := nextAddress s } ∧
      exec (.mod a a) s = .next { s with regs := s.regs.set a.toNat 0, pc := nextAddress s })

/-- LDI writes its literal, LD the byte at the address in its second register. In every state and for every register
operand: LDI writes its literal byte, any byte at all; LD writes the byte of memory at the address that is the second
register's value, read before the first register is written. pc moves past the instruction and everything else,
memory included, is as before. The reading of the address is the spec's decision D22 (log entry 9). -/
def Obligations.LoadResults : Prop :=
  ∀ (s : State) (a b lit : Byte) (ha : a.toNat < 8) (hb : b.toNat < 8),
    exec (.ldi a lit) s = .next { s with regs := s.regs.set a.toNat lit, pc := nextAddress s } ∧
    exec (.ld a b) s = .next { s with
      regs := s.regs.set a.toNat (Memory.read s.mem s.regs[b.toNat].toNat), pc := nextAddress s }

/-- ST writes the second register's value at the address in the first register and no other byte. In every state and for
all register operands: ST answers a next state that differs from the old one in pc, moved past the instruction, and
in memory only; the byte at the address in the first register is the second register's value, and every other byte
reads as before. The reading of the address is the spec's decision D22 (log entry 9). -/
def Obligations.StoreResult : Prop :=
  ∀ (s : State) (a b : Byte) (ha : a.toNat < 8) (hb : b.toNat < 8), ∃ m : Memory,
    exec (.st a b) s = .next { s with mem := m, pc := nextAddress s } ∧
    Memory.read m s.regs[a.toNat].toNat = s.regs[b.toNat] ∧
    ∀ x : Nat, x % 256 ≠ s.regs[a.toNat].toNat → Memory.read m x = Memory.read s.mem x

/-- PUSH decrements SP mod 256 and then writes the register at the new SP. In every state and for every register operand:
PUSH answers a next state that differs from the old one in pc, moved past the instruction, in R7, one less mod 256,
and in memory at the new R7 only, which holds the register's value read after the decrement; so PUSH r7 stores the
decremented value (the spec's decision D17, log entry 3). That SP wraps is its decision D4 (log entry 9). -/
def Obligations.PushResult : Prop :=
  ∀ (s : State) (a : Byte) (ha : a.toNat < 8), ∃ m : Memory,
    exec (.push a) s = .next { s with regs := s.regs.set 7 (s.regs[7] - 1), mem := m, pc := nextAddress s } ∧
    Memory.read m (s.regs[7] - 1).toNat = (if a = 7 then s.regs[7] - 1 else s.regs[a.toNat]) ∧
    ∀ x : Nat, x % 256 ≠ (s.regs[7] - 1).toNat → Memory.read m x = Memory.read s.mem x

/-- POP reads at SP, increments SP mod 256, then writes the register. In every state and for every register operand: POP
answers a next state in which R7 is one more mod 256 and then the register holds the byte at the old R7, so POP r7
leaves R7 equal to the popped byte (the spec's decision D17, log entry 3); pc moves past the instruction and
everything else, memory included, is as before. That SP wraps is the spec's decision D4 (log entry 9). -/
def Obligations.PopResult : Prop :=
  ∀ (s : State) (a : Byte) (ha : a.toNat < 8),
    exec (.pop a) s = .next { s with
      regs := (s.regs.set 7 (s.regs[7] + 1)).set a.toNat (Memory.read s.mem s.regs[7].toNat), pc := nextAddress s }

/-- PUSH then POP moves a value from register to register and leaves SP as it was. In every state and for every pushed
and every popped register: the two instructions one after the other both answer a next state, the popped register
ends with the pushed value (the decremented SP for PUSH r7), R7 is what it was before unless it is the popped
register, and every other register is unchanged. What PUSH r7 pushes and what POP r7 leaves in R7 are the spec's
decision D17 (log entry 3); that SP wraps mod 256 is its decision D4 (log entry 9). -/
def Obligations.PushThenPopMovesTheValue : Prop :=
  ∀ (s : State) (a b : Byte) (ha : a.toNat < 8) (hb : b.toNat < 8), ∃ t u : State,
    exec (.push a) s = .next t ∧ exec (.pop b) t = .next u ∧
    u.regs[b.toNat] = (if a = 7 then s.regs[7] - 1 else s.regs[a.toNat]) ∧
    (b ≠ 7 → u.regs[7] = s.regs[7]) ∧ ∀ (n : Nat) (hn : n < 8), n ≠ b.toNat → n ≠ 7 → u.regs[n] = s.regs[n]

/-- CALL pushes pc + 2 and jumps to the register, read after the push. In every state and for every register operand:
CALL answers a next state that differs from the old one in R7, one less mod 256, in memory at the new R7 only, which
holds pc + 2 mod 256, and in pc, which is the register's value after the push, so CALL r7 jumps to the decremented
SP. The wrap and the order are the spec's decisions D3 and D17 (log entry 3). That SP wraps is its decision D4 (log
entry 9). -/
def Obligations.CallResult : Prop :=
  ∀ (s : State) (a : Byte) (ha : a.toNat < 8), ∃ m : Memory,
    exec (.call a) s = .next { s with
      regs := s.regs.set 7 (s.regs[7] - 1), mem := m,
      pc := if a = 7 then s.regs[7] - 1 else s.regs[a.toNat] } ∧
    Memory.read m (s.regs[7] - 1).toNat = s.pc + 2 ∧
    ∀ x : Nat, x % 256 ≠ (s.regs[7] - 1).toNat → Memory.read m x = Memory.read s.mem x

/-- RET jumps to the byte at SP and increments SP mod 256. In every state RET answers a next state that differs from the
old one in pc, the byte of memory at the old R7, and in R7, one more mod 256, only. That SP wraps is the spec's
decision D4 (log entry 9). -/
def Obligations.ReturnResult : Prop :=
  ∀ s : State,
    exec .ret s = .next { s with
      regs := s.regs.set 7 (s.regs[7] + 1), pc := Memory.read s.mem s.regs[7].toNat }

/-- A RET that finds SP and the pushed byte as CALL left them resumes after the CALL. In every state and for every
register operand, CALL answers a next state; and from every state in which R7 and the byte it points at are as CALL
left them, whatever else the callee changed, RET answers a next state whose pc is the CALL's address plus 2 mod 256
and whose R7 is what it was before the CALL. The wrap of the return address is the spec's decision D3 (log entry 3),
that of SP its D4 (log entry 9). -/
def Obligations.CallThenReturnResumesAfterCall : Prop :=
  ∀ (s : State) (a : Byte), a.toNat < 8 → ∃ t : State, exec (.call a) s = .next t ∧
    ∀ v : State, v.regs[7] = t.regs[7] →
      Memory.read v.mem t.regs[7].toNat = Memory.read t.mem t.regs[7].toNat →
      ∃ u : State, exec .ret v = .next u ∧ u.pc = s.pc + 2 ∧ u.regs[7] = s.regs[7]

/-- JMP always jumps; JEQ, JNE, JGT, JLT jump exactly if fl is 1, 0, 2, 4; nothing but pc changes. In every state and for
every register operand: JMP sets pc to the register's value; each conditional jump sets pc to the register's value if
the whole of fl equals its constant (1 for JEQ, 0 for JNE, 2 for JGT, 4 for JLT) and to the address past the
instruction if not; nothing else changes, fl included. -/
def Obligations.JumpAndConditionalJumpResults : Prop :=
  ∀ (s : State) (a : Byte) (ha : a.toNat < 8),
    exec (.jmp a) s = .next { s with pc := s.regs[a.toNat] } ∧
    exec (.jeq a) s = .next { s with pc := if s.fl = 1 then s.regs[a.toNat] else nextAddress s } ∧
    exec (.jne a) s = .next { s with pc := if s.fl = 0 then s.regs[a.toNat] else nextAddress s } ∧
    exec (.jgt a) s = .next { s with pc := if s.fl = 2 then s.regs[a.toNat] else nextAddress s } ∧
    exec (.jlt a) s = .next { s with pc := if s.fl = 4 then s.regs[a.toNat] else nextAddress s }

/-- Once fl has two of its three bits, no conditional jump is ever taken again in the run. From every state in which fl
has at least two of the bits E, G and L, and after any number of steps, through whatever instructions: fl still has
those two bits, and if the machine runs and the bytes at pc, pc + 1 and pc + 2 decode to a JEQ, JNE, JGT or JLT with
a register operand, the next step falls through: it writes the jump's opcode byte to ir, moves pc to pc + 2 mod 256,
and changes nothing else. That CMP never clears fl is the source's behaviour, kept in the spec's decision D7 (log
entry 9); that pc + 2 wraps is its decision D3 (log entry 3). -/
def Obligations.FlagExhaustionEndsConditionalJumps : Prop :=
  ∀ (n : Nat) (s t : State) (p q : Byte), p ∈ [1, 2, 4] → q ∈ [1, 2, 4] → p ≠ q →
    s.fl &&& p = p → s.fl &&& q = q → Host.Core.run Sys2Proof.core n s = .next t →
    (t.fl &&& p = p ∧ t.fl &&& q = q) ∧
    ∀ (a : Byte) (i : Instr), a.toNat < 8 → i ∈ [Instr.jeq a, .jne a, .jgt a, .jlt a] → t.run = true →
      decode (Memory.read t.mem t.pc.toNat) (Memory.read t.mem (t.pc.toNat + 1)) (Memory.read t.mem (t.pc.toNat + 2)) =
        .ok i →
      step t = .next { t with ir := Memory.read t.mem t.pc.toNat, pc := t.pc + 2 }

/-- HLT clears run, sets cause to Hlt, emits nothing, and moves pc past itself. In every state HLT answers a next state
that differs from the old one in run, cleared, cause, Hlt, and pc, past the instruction, only; neither stream gets an
event. That pc moves is the spec's decision D12 (log entry 11). -/
def Obligations.HaltInstructionResult : Prop :=
  ∀ s : State, exec .hlt s = .next { s with run := false, cause := .hlt, pc := nextAddress s }

/-- NOP and IRET only move pc past themselves. In every state NOP and IRET both answer the state with pc past the
instruction and nothing else changed; IRET pops nothing and re-enables nothing. -/
def Obligations.NopAndIretOnlyAdvance : Prop :=
  ∀ s : State, exec .nop s = .next { s with pc := nextAddress s } ∧ exec .iret s = .next { s with pc := nextAddress s }

/-- PRN and PRA append one event with the register's value to the console and change nothing else but pc. In every state
and for every register operand: PRN appends Dec of the register's value to the console stream and PRA appends Chr of
it; pc moves past the instruction and everything else is as before. The form of the events is the spec's decision D18
(log entry 12). -/
def Obligations.PrintResults : Prop :=
  ∀ (s : State) (a : Byte) (ha : a.toNat < 8),
    exec (.prn a) s = .next { s with console := s.console ++ [.dec s.regs[a.toNat]], pc := nextAddress s } ∧
    exec (.pra a) s = .next { s with console := s.console ++ [.chr s.regs[a.toNat]], pc := nextAddress s }

/-- An instruction changes no register but its destination and, for the stack instructions, R7. Every instruction in
every state answers a next state in which every general register is unchanged but: the destination register of the
ALU instructions other than CMP, of LDI, LD and POP; and R7 for PUSH, POP, CALL and RET. CMP, ST, the jumps, PRN,
PRA, HLT, NOP and IRET change none. -/
def Obligations.RegisterFrame : Prop :=
  ∀ (i : Instr) (s : State), ∃ t : State, exec i s = .next t ∧
    ∀ (n : Nat) (hn : n < 8), mayWriteReg i n = false → t.regs[n] = s.regs[n]

/-- Only CMP writes fl, no step clears a bit of it, and reset alone makes it 0. Every instruction other than CMP leaves
fl as it was; every step, from every state, keeps every bit of fl that is set, so the bits only grow, and keeps fl in
0 to 7; reset, with any memory, leaves fl 0. -/
def Obligations.OnlyCompareWritesFlagsAndOnlySetsBits : Prop :=
  (∀ (i : Instr) (s : State), ∃ t : State, exec i s = .next t ∧ ((∀ a b : Byte, i ≠ .cmp a b) → t.fl = s.fl)) ∧
  (∀ s : State, ∃ t : State, step s = .next t ∧ s.fl &&& t.fl = s.fl ∧ (s.fl.toNat < 8 → t.fl.toNat < 8)) ∧
  ∀ (image : List Byte) (s : State), ∃ t : State, respond (.reset image) s = .next t ∧ t.fl = 0

/-- ST, PUSH and CALL change one byte, at the address their meaning computes; no other instruction changes memory. Every
instruction in every state answers a next state in which every byte outside the one it stores reads as before: for ST
the byte at the value of its first register, for PUSH and CALL the byte at R7 minus 1 mod 256, for every other
instruction none. That ST's address is its register's value is the spec's decision D22, that R7 minus 1 is taken mod
256 its decision D4 (log entry 9). -/
def Obligations.MemoryFrame : Prop :=
  ∀ (i : Instr) (s : State), ∃ t : State, exec i s = .next t ∧
    (storeTarget i s = none → t.mem = s.mem) ∧
    ∀ x : Nat, (∀ y, storeTarget i s = some y → x % 256 ≠ y) → Memory.read t.mem x = Memory.read s.mem x

/-- No instruction reads or writes ir as an operand; a running step starts by overwriting it. Every instruction in every
state answers a next state and leaves ir as it was. With any other byte in ir it answers the same registers, fl, run,
cause, memory and console, the new error events differ at most in the opcode byte, which is that byte, and pc is the
same if the two bytes have the same bits 6:5; so ir reaches nothing else. A step of a running machine leaves in ir
the byte at pc, also when the byte is an illegal opcode, executes what the decoder reads from that byte, and does not
depend on what ir held before: replacing ir by any byte gives the same outcome. That an instruction applied to a
state takes its operand count from ir there is log entry 13. -/
def Obligations.InstructionRegisterIsOnlyFetched : Prop :=
  (∀ (i : Instr) (s : State) (v : Byte), ∃ (t : State) (new : List ErrorEvent) (p : Byte),
    exec i s = .next t ∧ t.ir = s.ir ∧ t.errors = s.errors ++ new ∧
    exec i { s with ir := v } =
      .next { t with ir := v, pc := p, errors := s.errors ++ new.map fun e => { e with op := v } } ∧
    (operandCount v = operandCount s.ir → p = t.pc)) ∧
  ∀ (s : State) (v : Byte), s.run = true →
    ∃ t : State, step s = .next t ∧ t.ir = Memory.read s.mem s.pc.toNat ∧ step { s with ir := v } = .next t ∧
      ∀ i : Instr,
        decode t.ir (Memory.read s.mem (s.pc.toNat + 1)) (Memory.read s.mem (s.pc.toNat + 2)) = .ok i →
        exec i { s with ir := t.ir } = .next t

/-- The console stream only grows, by exactly one event for each executed PRN or PRA and none else. Every instruction in
every state answers a next state whose console stream is the old one, followed by Dec of the register's value for a
PRN and Chr of it for a PRA whose operand is a register, and by nothing in every other case. The form of the stream
is the spec's decision D18 (log entry 12). -/
def Obligations.ConsoleFrame : Prop :=
  ∀ (i : Instr) (s : State), ∃ t : State, exec i s = .next t ∧
    t.console = s.console ++
      match i with
      | .prn a => if h : a.toNat < 8 then [.dec (s.regs[a.toNat]'h)] else []
      | .pra a => if h : a.toNat < 8 then [.chr (s.regs[a.toNat]'h)] else []
      | _ => []

/-- run, cause and the error channel are touched by HLT and by faults only. Every instruction in every state answers a
next state; unless it is HLT, has a register operand of 8 or more, or is DIV or MOD with a zero divisor, run, cause
and the error channel are as before; and HLT leaves the error channel as it was. That cause is state is the spec's
decision D30 (log entry 11). -/
def Obligations.HaltStateFrame : Prop :=
  ∀ (i : Instr) (s : State), ∃ t : State, exec i s = .next t ∧ (i = .hlt → t.errors = s.errors) ∧
    (i ≠ .hlt → i.wellFormed = true →
      (∀ (a b : Byte) (hb : b.toNat < 8), (i = .div a b ∨ i = .mod a b) → s.regs[b.toNat] ≠ 0) →
      t.run = s.run ∧ t.cause = s.cause ∧ t.errors = s.errors)

/-- The next pc of every instruction, by the step. In every running state whose bytes at pc decode to an instruction with
legal register operands, the step answers a next state whose pc is: pc plus the instruction's length mod 256 for
every instruction that is no control transfer, HLT and a DIV or MOD by zero included; the register's value for JMP,
and for a conditional jump whose condition holds, else pc + 2; the register's value after the push for CALL; the byte
at the old R7 for RET. The wrap and the halting cases are the spec's decisions D3, D12, D13 (log entries 3 and 11).
That CALL r7 reads R7 after the push, and that the push wraps, are its decisions D17 and D4 (log entries 3 and 9). -/
def Obligations.NextPcOfEveryInstruction : Prop :=
  ∀ (s : State) (i : Instr), s.run = true → i.wellFormed = true →
    decode (Memory.read s.mem s.pc.toNat) (Memory.read s.mem (s.pc.toNat + 1)) (Memory.read s.mem (s.pc.toNat + 2)) =
      .ok i →
    ∃ t : State, step s = .next t ∧
      (isControlTransfer i = false → t.pc = s.pc + BitVec.ofNat 8 i.encode.length) ∧
      (i = .ret → t.pc = Memory.read s.mem s.regs[7].toNat) ∧
      ∀ (a : Byte) (ha : a.toNat < 8),
        (i = .jmp a → t.pc = s.regs[a.toNat]) ∧
        (i = .call a → t.pc = if a = 7 then s.regs[7] - 1 else s.regs[a.toNat]) ∧
        (i = .jeq a → t.pc = if s.fl = 1 then s.regs[a.toNat] else s.pc + 2) ∧
        (i = .jne a → t.pc = if s.fl = 0 then s.regs[a.toNat] else s.pc + 2) ∧
        (i = .jgt a → t.pc = if s.fl = 2 then s.regs[a.toNat] else s.pc + 2) ∧
        (i = .jlt a → t.pc = if s.fl = 4 then s.regs[a.toNat] else s.pc + 2)

/-- A tick of a halted machine changes nothing; a tick of a running machine performs a step. In every halted state the
step answers the same state, ir and the streams included; in every running state it answers a next state that has
fetched the byte at pc. -/
def Obligations.HaltedTickChangesNothing : Prop :=
  (∀ s : State, s.run = false → step s = .next s) ∧
  ∀ s : State, s.run = true → ∃ t : State, step s = .next t ∧ t.ir = Memory.read s.mem s.pc.toNat

/-- The byte at pc is written to ir in every step, legal or not. Every step of a running machine answers a next state
with the byte that memory held at pc before the step in ir; the value stays also where the byte is no legal opcode
and where the instruction overwrites that byte of memory. -/
def Obligations.EveryStepFetchesTheOpcodeFirst : Prop :=
  ∀ s : State, s.run = true → ∃ t : State, step s = .next t ∧ t.ir = Memory.read s.mem s.pc.toNat ∧
    (Memory.read s.mem s.pc.toNat ∉ legalOpcodes → t.ir = Memory.read s.mem s.pc.toNat ∧ t.mem = s.mem)

/-- From every state, any number of steps answers a next state. The step is total: from every state, reachable or not,
and for every number of steps, the machine answers a next state; nothing is refused and no access or instruction ends
the run outside the machine's own halted state. -/
def Obligations.EveryRunAnswers : Prop :=
  ∀ (n : Nat) (s : State), ∃ t : State, Host.Core.run Sys2Proof.core n s = .next t

/-- A running machine halts in a step exactly on HLT, an illegal opcode, an invalid register or a zero divisor. Every
step of a running machine answers a next state; that state is halted exactly if the byte at pc is not one of the 29
opcodes, or the decoded instruction is HLT, or one of its register operands is 8 or more, or it is DIV or MOD with
legal operands and a zero divisor. -/
def Obligations.WaysToHalt : Prop :=
  ∀ s : State, s.run = true → ∃ t : State, step s = .next t ∧
    (t.run = false ↔
      Memory.read s.mem s.pc.toNat ∉ legalOpcodes ∨
      ∃ i : Instr,
        decode (Memory.read s.mem s.pc.toNat) (Memory.read s.mem (s.pc.toNat + 1))
          (Memory.read s.mem (s.pc.toNat + 2)) = .ok i ∧
        (i = .hlt ∨ i.wellFormed = false ∨
          ∃ (a b : Byte) (_ : a.toNat < 8) (hb : b.toNat < 8), (i = .div a b ∨ i = .mod a b) ∧ s.regs[b.toNat] = 0))

/-- Every step keeps memory canonical, the flags legal, and the halt record consistent. From every state in which memory
is in its canonical form, fl is 0 to 7, and run, cause, ir, pc and the error channel agree as the table of halt
causes says (no error event unless a fault halted the machine, and then exactly one, with the opcode byte still in ir
and the address it was fetched from), the step answers a next state of which the same holds. The canonical form is
the model's own (log entry 1, DESIGN CHOICE); that cause is state is the spec's decision D30, and where pc is after a
fault are its decisions D9, D10, D13 (log entries 10 and 11). -/
def Obligations.StepKeepsInvariant : Prop :=
  ∀ s : State, s.inv = true → ∃ t : State, step s = .next t ∧ t.inv = true

/-- The reset state meets the invariant. In the reset state memory is in its canonical form, fl is 0, and run, cause and
the error channel are those of a running machine. Values by the spec's decisions D14, D15, D18, D30 (log entry 8);
memory with nothing listed, and the canonical form, are the model's own (log entry 1, DESIGN CHOICE). -/
def Obligations.ResetMeetsInvariant : Prop :=
  State.reset.inv = true

/-- The state after reset meets the invariant whatever image the loader wrote. For every byte list loaded from address 0
upward, of any length, the state before the first tick meets the invariant: its memory is in the canonical form, its
fl is 0, and run, cause and the error channel are those of a running machine. The canonical form is the model's own
(log entry 1, DESIGN CHOICE), and so is the boot state that stands for the loader's effect (log entry 4, DESIGN
CHOICE); the flags and the halt record after reset are the spec's decisions D14, D15, D18, D30 (log entry 8), and the
open memory its D16. -/
def Obligations.EveryBootStateMeetsInvariant : Prop :=
  ∀ image : List Byte, (State.boot image).inv = true

/-- Through every sequence of ticks and resets the machine answers, and keeps the invariant and the error channel's
bound. From every state that meets the invariant, every finite sequence of ticks and of resets with any loaded image
leads to a next state that meets the invariant, has at most one error event, has one exactly if the machine has gone
wrong, and is halted exactly if it has a halt cause. The canonical form of memory within the invariant is the model's
own (log entry 1, DESIGN CHOICE), and so is the loaded image of a reset (log entry 4, DESIGN CHOICE); that ticks and
resets are all the inputs are the spec's decisions D15, D20 (log entry 5), the values after reset its D14, D15, D18
(log entry 8), that cause is state its D30, and pc after a fault its D9, D10, D13 (log entries 10 and 11). -/
def Obligations.EveryInputSequenceKeepsInvariant : Prop :=
  ∀ (es : List ExternalEvent) (s : State), s.inv = true → ∃ t : State, respondAll es s = .next t ∧ t.inv = true ∧
    t.errors.length ≤ 1 ∧ (t.errors.length = 1 ↔ t.goneWrong = true) ∧ (t.run = false ↔ t.cause ≠ .none)

/-- After a fault no number of steps changes anything: no handler, no continuation. In every state that meets the
invariant and in which a fault halted the machine, any number of steps answers the very same state. The canonical
form of memory within the premise is the model's own (log entry 1, DESIGN CHOICE). -/
def Obligations.FaultHaltIsFinal : Prop :=
  ∀ (s : State), s.inv = true → s.goneWrong = true →
    ∀ n : Nat, Host.Core.run Sys2Proof.core n s = .next s

/-- run goes from 0 to 1 only by a reset, which discards the run. In every halted state, every input answers a next
state; if the machine runs in it, the input was a reset, and the state is the reset state with the loaded image in
memory. The reset input is the spec's decision D15 (log entry 5); the loaded image is the model's form of the
loader's effect (log entry 4, DESIGN CHOICE). -/
def Obligations.OnlyResetLeavesTheHaltedState : Prop :=
  ∀ (e : ExternalEvent) (s : State), s.run = false → ∃ t : State, respond e s = .next t ∧
    (t.run = true → ∃ image : List Byte, e = .reset image ∧ t = State.boot image)

/-- A faulting step writes ir and the halt bookkeeping and nothing else. From every running state that meets the
invariant, the step answers a next state; if that state has gone wrong, then registers, fl, memory and console are as
before, ir is the byte at pc, run is cleared, cause is that of one fault, the error channel holds one event with that
fault, that byte and the old pc, and pc is unchanged but for DivZero, where it has advanced by 3. Where pc ends is
decided by the spec in D9, D10, D13 (log entries 10 and 11). That cause is state is its D30; the canonical form of
memory within the premise is the model's own (log entry 1, DESIGN CHOICE). -/
def Obligations.FaultsArePrecise : Prop :=
  ∀ s : State, s.inv = true → s.run = true → ∃ t : State, step s = .next t ∧
    (t.goneWrong = true → ∃ k : FaultKind,
      t = { s with
        ir := Memory.read s.mem s.pc.toNat, run := false,
        cause := match k with
          | .illegalOpcode => .illegalOpcode
          | .invalidRegister => .invalidRegister
          | .divZero => .divZero,
        errors := [⟨k, Memory.read s.mem s.pc.toNat, s.pc⟩],
        pc := if k = .divZero then s.pc + 3 else s.pc })

/-- What reset leaves, whatever image is loaded. After reset with any loaded image: R0 to R6 are 0, R7 is 0xF4, pc, ir
and fl are 0, run is 1, cause is None, both streams are empty. Only R7's value is the source's; the others are the
spec's decisions D14, D15, D18, D30 (log entry 8). The boot state stands for the loader's effect (log entry 4, DESIGN
CHOICE). -/
def Obligations.ResetValues : Prop :=
  ∀ image : List Byte,
    (State.boot image).regs = #v[0, 0, 0, 0, 0, 0, 0, 0xF4] ∧ (State.boot image).pc = 0 ∧
    (State.boot image).ir = 0 ∧ (State.boot image).fl = 0 ∧ (State.boot image).run = true ∧
    (State.boot image).cause = .none ∧ (State.boot image).console = [] ∧ (State.boot image).errors = []

/-- The loader leaves byte k of the program at address k mod 256, later bytes over earlier ones, other cells free. For
every byte list, every memory before it and every address: the cell holds the last byte of the list whose index is
that address mod 256, if there is one (for a list of at most 256 bytes, the byte whose index is the address), and
else what it held before. -/
def Obligations.LoaderWritesProgramFromAddressZero : Prop :=
  ∀ (image : List Byte) (m : Memory) (x : Nat), x < 256 →
    Memory.read (loadProgram image m) x =
      if x < image.length then image.getD (x + 256 * ((image.length - 1 - x) / 256)) 0 else Memory.read m x

/-- Every initial memory contents is the memory of some boot state. For every function from addresses to bytes there is
an image with which the machine boots with exactly those 256 bytes in memory; so a claim about every boot state is a
claim about every MEM_INIT, the spec's open parameter (D16), and rests on no reading of an unlisted cell (log entry
1). The boot state is the model's form of the loader's effect (log entry 4, DESIGN CHOICE). -/
def Obligations.EveryMemInitIsABootMemory : Prop :=
  ∀ f : Nat → Byte, ∃ image : List Byte, ∀ x : Nat, x < 256 → Memory.read (State.boot image).mem x = f x

/-- Memory addresses 256 apart are the same cell, for reads and for writes. For every memory, address, multiple of 256
and byte: writing at the address plus that multiple is writing at the address, and reading there is reading at the
address. The capacity 256 is the spec's decision D2 (log entry 3). -/
def Obligations.AddressesWrapMod256 : Prop :=
  ∀ (m : Memory) (x k : Nat) (v : Byte),
    Memory.write m (x + 256 * k) v = Memory.write m x v ∧ Memory.read m (x + 256 * k) = Memory.read m x

/-- Two memories in canonical form that read the same everywhere are the same list. For all memories in the canonical
form: if every address reads the same in both, they are equal. The canonical form is the model's own (log entry 1). -/
def Obligations.CanonicalMemoryIsDeterminedByItsBytes : Prop :=
  ∀ m m' : Memory, Memory.wf m = true → Memory.wf m' = true →
    (∀ x : Nat, Memory.read m x = Memory.read m' x) → m = m'

/-- R5 and R6 have no effect on an instruction that does not name them, and none on them. For every instruction that does
not name R5 (or R6) as an operand, in every state: the instruction answers a next state in which that register is
unchanged, and with any other value in that register it answers the same state but for that value. -/
def Obligations.MaskAndStatusRegistersAreInert : Prop :=
  ∀ (i : Instr) (s : State) (r : Nat) (hr : r < 8) (v : Byte), (r = 5 ∨ r = 6) →
    (∀ o ∈ i.regOperands, o.toNat ≠ r) →
    ∃ t : State, exec i s = .next t ∧ t.regs[r] = s.regs[r] ∧
      exec i { s with regs := s.regs.set r v } = .next { t with regs := t.regs.set r v }

/-- Only JEQ, JNE, JGT and JLT depend on fl, each on its equality with one constant. For every instruction other than the
four conditional jumps, in every state and for every other value of fl: the instruction answers the same state but
for fl, so fl reaches no register, no memory, no pc and no stream; and each conditional jump goes to its register's
value exactly if fl equals 1, 0, 2, 4 as a whole, and past itself if not. -/
def Obligations.FlagsAreReadOnlyByConditionalJumps : Prop :=
  (∀ (i : Instr) (s : State) (f : Byte), (∀ a : Byte, i ∉ [Instr.jeq a, .jne a, .jgt a, .jlt a]) →
    ∃ (t : State) (f' : Byte), exec i s = .next t ∧ exec i { s with fl := f } = .next { t with fl := f' }) ∧
  ∀ (s : State) (a : Byte) (ha : a.toNat < 8) (i : Instr) (c : Byte),
    (i, c) ∈ [(Instr.jeq a, (1 : Byte)), (.jne a, 0), (.jgt a, 2), (.jlt a, 4)] →
    exec i s = .next { s with pc := if s.fl = c then s.regs[a.toNat] else nextAddress s }

/-- No step depends on the output streams; it only appends to them. For every state and all event lists put before its
two streams: the step answers the same state with those lists before its streams. The form of the streams is the
spec's decision D18 (log entry 12). -/
def Obligations.StreamsAreNotRead : Prop :=
  ∀ (s : State) (c : List ConsoleEvent) (e : List ErrorEvent), ∃ t : State, step s = .next t ∧
    step { s with console := c ++ s.console, errors := e ++ s.errors } =
      .next { t with console := c ++ t.console, errors := e ++ t.errors }
end

