-- ==== Sys2Proof/Laws/Decode.lean ====
section
/-! SUPPORT. The opcode byte of each instruction, and what decoding can answer. -/

namespace Sys2Proof

@[simp] theorem opcode_nop : Instr.nop.opcode = 0x00 := rfl
@[simp] theorem opcode_hlt : Instr.hlt.opcode = 0x01 := rfl
@[simp] theorem opcode_iret : Instr.iret.opcode = 0x02 := rfl
@[simp] theorem opcode_ret : Instr.ret.opcode = 0x10 := rfl
@[simp] theorem opcode_prn (a : Byte) : (Instr.prn a).opcode = 0x20 := rfl
@[simp] theorem opcode_pra (a : Byte) : (Instr.pra a).opcode = 0x21 := rfl
@[simp] theorem opcode_push (a : Byte) : (Instr.push a).opcode = 0x22 := rfl
@[simp] theorem opcode_pop (a : Byte) : (Instr.pop a).opcode = 0x23 := rfl
@[simp] theorem opcode_call (a : Byte) : (Instr.call a).opcode = 0x30 := rfl
@[simp] theorem opcode_jmp (a : Byte) : (Instr.jmp a).opcode = 0x31 := rfl
@[simp] theorem opcode_jeq (a : Byte) : (Instr.jeq a).opcode = 0x32 := rfl
@[simp] theorem opcode_jne (a : Byte) : (Instr.jne a).opcode = 0x33 := rfl
@[simp] theorem opcode_jgt (a : Byte) : (Instr.jgt a).opcode = 0x34 := rfl
@[simp] theorem opcode_jlt (a : Byte) : (Instr.jlt a).opcode = 0x35 := rfl
@[simp] theorem opcode_ldi (a lit : Byte) : (Instr.ldi a lit).opcode = 0x40 := rfl
@[simp] theorem opcode_ld (a b : Byte) : (Instr.ld a b).opcode = 0x41 := rfl
@[simp] theorem opcode_st (a b : Byte) : (Instr.st a b).opcode = 0x42 := rfl
@[simp] theorem opcode_not (a : Byte) : (Instr.not a).opcode = 0xA0 := rfl
@[simp] theorem opcode_inc (a : Byte) : (Instr.inc a).opcode = 0xA1 := rfl
@[simp] theorem opcode_dec (a : Byte) : (Instr.dec a).opcode = 0xA2 := rfl
@[simp] theorem opcode_add (a b : Byte) : (Instr.add a b).opcode = 0xC0 := rfl
@[simp] theorem opcode_sub (a b : Byte) : (Instr.sub a b).opcode = 0xC1 := rfl
@[simp] theorem opcode_mul (a b : Byte) : (Instr.mul a b).opcode = 0xC2 := rfl
@[simp] theorem opcode_div (a b : Byte) : (Instr.div a b).opcode = 0xC3 := rfl
@[simp] theorem opcode_mod (a b : Byte) : (Instr.mod a b).opcode = 0xC4 := rfl
@[simp] theorem opcode_and (a b : Byte) : (Instr.and a b).opcode = 0xC5 := rfl
@[simp] theorem opcode_or (a b : Byte) : (Instr.or a b).opcode = 0xC6 := rfl
@[simp] theorem opcode_xor (a b : Byte) : (Instr.xor a b).opcode = 0xC7 := rfl
@[simp] theorem opcode_cmp (a b : Byte) : (Instr.cmp a b).opcode = 0xC8 := rfl

/-- The decoder's only ground to refuse is the opcode byte itself. -/
theorem decode_error {op a b : Byte} {e : DecodeError} (h : decode op a b = .error e) : e = .illegalOpcode op := by
  unfold decode at h
  split at h <;> first | (cases h; rfl) | cases h

/-- The opcode byte of the decoded instruction is the byte decoded. -/
theorem opcode_of_decode {op a b : Byte} {i : Instr} (h : decode op a b = .ok i) : i.opcode = op := by
  unfold decode at h
  split at h <;> first | (cases h; rfl) | cases h

end Sys2Proof
end

