-- ==== Sys2Proof/Laws/State.lean ====
section
/-! SUPPORT. What each update of the state leaves in each field, so that no later proof unfolds a record update. The
values that need arithmetic (the advanced pc, the moved stack pointer) are in Laws/Ops.lean. -/

namespace Sys2Proof.Machine

variable (s : State)

@[simp] theorem State.setReg_regs (r : RegIndex) (v : Byte) : (s.setReg r v).regs = s.regs.set r.val v r.isLt := rfl
@[simp] theorem State.setReg_pc (r : RegIndex) (v : Byte) : (s.setReg r v).pc = s.pc := rfl
@[simp] theorem State.setReg_ir (r : RegIndex) (v : Byte) : (s.setReg r v).ir = s.ir := rfl
@[simp] theorem State.setReg_fl (r : RegIndex) (v : Byte) : (s.setReg r v).fl = s.fl := rfl
@[simp] theorem State.setReg_run (r : RegIndex) (v : Byte) : (s.setReg r v).run = s.run := rfl
@[simp] theorem State.setReg_cause (r : RegIndex) (v : Byte) : (s.setReg r v).cause = s.cause := rfl
@[simp] theorem State.setReg_mem (r : RegIndex) (v : Byte) : (s.setReg r v).mem = s.mem := rfl
@[simp] theorem State.setReg_console (r : RegIndex) (v : Byte) : (s.setReg r v).console = s.console := rfl
@[simp] theorem State.setReg_errors (r : RegIndex) (v : Byte) : (s.setReg r v).errors = s.errors := rfl

@[simp] theorem State.writeMem_regs (a : Nat) (v : Byte) : (s.writeMem a v).regs = s.regs := rfl
@[simp] theorem State.writeMem_pc (a : Nat) (v : Byte) : (s.writeMem a v).pc = s.pc := rfl
@[simp] theorem State.writeMem_ir (a : Nat) (v : Byte) : (s.writeMem a v).ir = s.ir := rfl
@[simp] theorem State.writeMem_fl (a : Nat) (v : Byte) : (s.writeMem a v).fl = s.fl := rfl
@[simp] theorem State.writeMem_run (a : Nat) (v : Byte) : (s.writeMem a v).run = s.run := rfl
@[simp] theorem State.writeMem_cause (a : Nat) (v : Byte) : (s.writeMem a v).cause = s.cause := rfl
@[simp] theorem State.writeMem_mem (a : Nat) (v : Byte) : (s.writeMem a v).mem = Memory.write s.mem a v := rfl
@[simp] theorem State.writeMem_console (a : Nat) (v : Byte) : (s.writeMem a v).console = s.console := rfl
@[simp] theorem State.writeMem_errors (a : Nat) (v : Byte) : (s.writeMem a v).errors = s.errors := rfl

@[simp] theorem State.autoAdvance_regs : (s.autoAdvance).regs = s.regs := rfl
@[simp] theorem State.autoAdvance_ir : (s.autoAdvance).ir = s.ir := rfl
@[simp] theorem State.autoAdvance_fl : (s.autoAdvance).fl = s.fl := rfl
@[simp] theorem State.autoAdvance_run : (s.autoAdvance).run = s.run := rfl
@[simp] theorem State.autoAdvance_cause : (s.autoAdvance).cause = s.cause := rfl
@[simp] theorem State.autoAdvance_mem : (s.autoAdvance).mem = s.mem := rfl
@[simp] theorem State.autoAdvance_console : (s.autoAdvance).console = s.console := rfl
@[simp] theorem State.autoAdvance_errors : (s.autoAdvance).errors = s.errors := rfl

@[simp] theorem State.jumpTo_regs (v : Byte) : (s.jumpTo v).regs = s.regs := rfl
@[simp] theorem State.jumpTo_pc (v : Byte) : (s.jumpTo v).pc = v := rfl
@[simp] theorem State.jumpTo_ir (v : Byte) : (s.jumpTo v).ir = s.ir := rfl
@[simp] theorem State.jumpTo_fl (v : Byte) : (s.jumpTo v).fl = s.fl := rfl
@[simp] theorem State.jumpTo_run (v : Byte) : (s.jumpTo v).run = s.run := rfl
@[simp] theorem State.jumpTo_cause (v : Byte) : (s.jumpTo v).cause = s.cause := rfl
@[simp] theorem State.jumpTo_mem (v : Byte) : (s.jumpTo v).mem = s.mem := rfl
@[simp] theorem State.jumpTo_console (v : Byte) : (s.jumpTo v).console = s.console := rfl
@[simp] theorem State.jumpTo_errors (v : Byte) : (s.jumpTo v).errors = s.errors := rfl

@[simp] theorem State.emitConsole_regs (e : ConsoleEvent) : (s.emitConsole e).regs = s.regs := rfl
@[simp] theorem State.emitConsole_pc (e : ConsoleEvent) : (s.emitConsole e).pc = s.pc := rfl
@[simp] theorem State.emitConsole_ir (e : ConsoleEvent) : (s.emitConsole e).ir = s.ir := rfl
@[simp] theorem State.emitConsole_fl (e : ConsoleEvent) : (s.emitConsole e).fl = s.fl := rfl
@[simp] theorem State.emitConsole_run (e : ConsoleEvent) : (s.emitConsole e).run = s.run := rfl
@[simp] theorem State.emitConsole_cause (e : ConsoleEvent) : (s.emitConsole e).cause = s.cause := rfl
@[simp] theorem State.emitConsole_mem (e : ConsoleEvent) : (s.emitConsole e).mem = s.mem := rfl
@[simp] theorem State.emitConsole_console (e : ConsoleEvent) : (s.emitConsole e).console = s.console ++ [e] := rfl
@[simp] theorem State.emitConsole_errors (e : ConsoleEvent) : (s.emitConsole e).errors = s.errors := rfl

@[simp] theorem State.orFlags_regs (v : Byte) : (s.orFlags v).regs = s.regs := rfl
@[simp] theorem State.orFlags_pc (v : Byte) : (s.orFlags v).pc = s.pc := rfl
@[simp] theorem State.orFlags_ir (v : Byte) : (s.orFlags v).ir = s.ir := rfl
@[simp] theorem State.orFlags_fl (v : Byte) : (s.orFlags v).fl = s.fl ||| v := rfl
@[simp] theorem State.orFlags_run (v : Byte) : (s.orFlags v).run = s.run := rfl
@[simp] theorem State.orFlags_cause (v : Byte) : (s.orFlags v).cause = s.cause := rfl
@[simp] theorem State.orFlags_mem (v : Byte) : (s.orFlags v).mem = s.mem := rfl
@[simp] theorem State.orFlags_console (v : Byte) : (s.orFlags v).console = s.console := rfl
@[simp] theorem State.orFlags_errors (v : Byte) : (s.orFlags v).errors = s.errors := rfl

@[simp] theorem State.halt_regs (c : Cause) : (s.halt c).regs = s.regs := rfl
@[simp] theorem State.halt_pc (c : Cause) : (s.halt c).pc = s.pc := rfl
@[simp] theorem State.halt_ir (c : Cause) : (s.halt c).ir = s.ir := rfl
@[simp] theorem State.halt_fl (c : Cause) : (s.halt c).fl = s.fl := rfl
@[simp] theorem State.halt_run (c : Cause) : (s.halt c).run = false := rfl
@[simp] theorem State.halt_cause (c : Cause) : (s.halt c).cause = c := rfl
@[simp] theorem State.halt_mem (c : Cause) : (s.halt c).mem = s.mem := rfl
@[simp] theorem State.halt_console (c : Cause) : (s.halt c).console = s.console := rfl
@[simp] theorem State.halt_errors (c : Cause) : (s.halt c).errors = s.errors := rfl

@[simp] theorem raise_regs (k : FaultKind) : (raise k s).regs = s.regs := rfl
@[simp] theorem raise_pc (k : FaultKind) : (raise k s).pc = s.pc := rfl
@[simp] theorem raise_ir (k : FaultKind) : (raise k s).ir = s.ir := rfl
@[simp] theorem raise_fl (k : FaultKind) : (raise k s).fl = s.fl := rfl
@[simp] theorem raise_run (k : FaultKind) : (raise k s).run = false := rfl
@[simp] theorem raise_cause (k : FaultKind) : (raise k s).cause = k.cause := rfl
@[simp] theorem raise_mem (k : FaultKind) : (raise k s).mem = s.mem := rfl
@[simp] theorem raise_console (k : FaultKind) : (raise k s).console = s.console := rfl
@[simp] theorem raise_errors (k : FaultKind) : (raise k s).errors = s.errors ++ [⟨k, s.ir, s.pc⟩] := rfl

@[simp] theorem State.decrementSp_pc : (s.decrementSp).pc = s.pc := rfl
@[simp] theorem State.decrementSp_ir : (s.decrementSp).ir = s.ir := rfl
@[simp] theorem State.decrementSp_fl : (s.decrementSp).fl = s.fl := rfl
@[simp] theorem State.decrementSp_run : (s.decrementSp).run = s.run := rfl
@[simp] theorem State.decrementSp_cause : (s.decrementSp).cause = s.cause := rfl
@[simp] theorem State.decrementSp_mem : (s.decrementSp).mem = s.mem := rfl
@[simp] theorem State.decrementSp_console : (s.decrementSp).console = s.console := rfl
@[simp] theorem State.decrementSp_errors : (s.decrementSp).errors = s.errors := rfl

@[simp] theorem State.incrementSp_pc : (s.incrementSp).pc = s.pc := rfl
@[simp] theorem State.incrementSp_ir : (s.incrementSp).ir = s.ir := rfl
@[simp] theorem State.incrementSp_fl : (s.incrementSp).fl = s.fl := rfl
@[simp] theorem State.incrementSp_run : (s.incrementSp).run = s.run := rfl
@[simp] theorem State.incrementSp_cause : (s.incrementSp).cause = s.cause := rfl
@[simp] theorem State.incrementSp_mem : (s.incrementSp).mem = s.mem := rfl
@[simp] theorem State.incrementSp_console : (s.incrementSp).console = s.console := rfl
@[simp] theorem State.incrementSp_errors : (s.incrementSp).errors = s.errors := rfl

@[simp] theorem State.pushReady_pc : (s.pushReady).pc = s.pc := rfl
@[simp] theorem State.pushReady_ir : (s.pushReady).ir = s.ir := rfl
@[simp] theorem State.pushReady_fl : (s.pushReady).fl = s.fl := rfl
@[simp] theorem State.pushReady_run : (s.pushReady).run = s.run := rfl
@[simp] theorem State.pushReady_cause : (s.pushReady).cause = s.cause := rfl
@[simp] theorem State.pushReady_mem : (s.pushReady).mem = s.mem := rfl
@[simp] theorem State.pushReady_console : (s.pushReady).console = s.console := rfl
@[simp] theorem State.pushReady_errors : (s.pushReady).errors = s.errors := rfl

@[simp] theorem State.writeTop_regs (v : Byte) : (s.writeTop v).regs = s.regs := rfl
@[simp] theorem State.writeTop_pc (v : Byte) : (s.writeTop v).pc = s.pc := rfl
@[simp] theorem State.writeTop_ir (v : Byte) : (s.writeTop v).ir = s.ir := rfl
@[simp] theorem State.writeTop_fl (v : Byte) : (s.writeTop v).fl = s.fl := rfl
@[simp] theorem State.writeTop_run (v : Byte) : (s.writeTop v).run = s.run := rfl
@[simp] theorem State.writeTop_cause (v : Byte) : (s.writeTop v).cause = s.cause := rfl
@[simp] theorem State.writeTop_mem (v : Byte) : (s.writeTop v).mem = Memory.write s.mem s.stackAddress v := rfl
@[simp] theorem State.writeTop_console (v : Byte) : (s.writeTop v).console = s.console := rfl
@[simp] theorem State.writeTop_errors (v : Byte) : (s.writeTop v).errors = s.errors := rfl

@[simp] theorem State.fetchOpcode_regs : (s.fetchOpcode).regs = s.regs := rfl
@[simp] theorem State.fetchOpcode_pc : (s.fetchOpcode).pc = s.pc := rfl
@[simp] theorem State.fetchOpcode_ir : (s.fetchOpcode).ir = Memory.read s.mem s.pc.toNat := rfl
@[simp] theorem State.fetchOpcode_fl : (s.fetchOpcode).fl = s.fl := rfl
@[simp] theorem State.fetchOpcode_run : (s.fetchOpcode).run = s.run := rfl
@[simp] theorem State.fetchOpcode_cause : (s.fetchOpcode).cause = s.cause := rfl
@[simp] theorem State.fetchOpcode_mem : (s.fetchOpcode).mem = s.mem := rfl
@[simp] theorem State.fetchOpcode_console : (s.fetchOpcode).console = s.console := rfl
@[simp] theorem State.fetchOpcode_errors : (s.fetchOpcode).errors = s.errors := rfl

/-! ## Registers through the accessors -/

/-- A register written is a register changed, R0, R5, R6 and R7 like any other (spec/10_state.md R11). -/
theorem State.reg_setReg (r q : RegIndex) (v : Byte) :
    (s.setReg r v).reg q = if r = q then v else s.reg q := by
  simp only [State.reg, State.setReg, Vector.getElem_set, Fin.ext_iff]

@[simp] theorem State.reg_setReg_same (r : RegIndex) (v : Byte) : (s.setReg r v).reg r = v := by
  rw [State.reg_setReg, if_pos rfl]

theorem State.reg_setReg_ne {r q : RegIndex} (h : r ≠ q) (v : Byte) : (s.setReg r v).reg q = s.reg q := by
  rw [State.reg_setReg, if_neg h]

@[simp] theorem State.reg_autoAdvance (r : RegIndex) : s.autoAdvance.reg r = s.reg r := rfl
@[simp] theorem State.reg_writeMem (a : Nat) (v : Byte) (r : RegIndex) : (s.writeMem a v).reg r = s.reg r := rfl
@[simp] theorem State.reg_writeTop (v : Byte) (r : RegIndex) : (s.writeTop v).reg r = s.reg r := rfl
@[simp] theorem State.reg_fetchOpcode (r : RegIndex) : s.fetchOpcode.reg r = s.reg r := rfl
@[simp] theorem State.stackAddress_writeTop (v : Byte) : (s.writeTop v).stackAddress = s.stackAddress := rfl

end Sys2Proof.Machine
end

