-- ==== Sys2Proof/Laws/Ops.lean ====
section
/-! SUPPORT. What each shared operation and each operand form can do, said once: the exact-then-reduced arithmetic as
arithmetic of bytes, the moved program counter and stack pointer, the two ways out of an operand form. -/

namespace Sys2Proof.Machine

/-! ## Exact results reduced mod 256 are byte arithmetic -/

@[simp] theorem trunc8_toNat_add (x y : Byte) : trunc8 ((x.toNat : Int) + y.toNat) = x + y := by
  apply BitVec.eq_of_toNat_eq; simp [trunc8, BitVec.toNat_ofInt]; omega

@[simp] theorem trunc8_toNat_sub (x y : Byte) : trunc8 ((x.toNat : Int) - y.toNat) = x - y := by
  apply BitVec.eq_of_toNat_eq; simp [trunc8, BitVec.toNat_ofInt]; omega

@[simp] theorem trunc8_toNat_mul (x y : Byte) : trunc8 ((x.toNat : Int) * y.toNat) = x * y := by
  apply BitVec.eq_of_toNat_eq
  simp only [trunc8, BitVec.toNat_ofInt, BitVec.toNat_mul]
  omega

@[simp] theorem trunc8_toNat_add_one (x : Byte) : trunc8 ((x.toNat : Int) + 1) = x + 1 := trunc8_toNat_add x 1

@[simp] theorem trunc8_toNat_sub_one (x : Byte) : trunc8 ((x.toNat : Int) - 1) = x - 1 := trunc8_toNat_sub x 1

@[simp] theorem trunc8_toNat_add_two (x : Byte) : trunc8 ((x.toNat : Int) + 2) = x + 2 := trunc8_toNat_add x 2

@[simp] theorem aluAdd_eq (x y : Byte) : aluAdd x y = x + y := trunc8_toNat_add x y
@[simp] theorem aluSub_eq (x y : Byte) : aluSub x y = x - y := trunc8_toNat_sub x y
@[simp] theorem aluMul_eq (x y : Byte) : aluMul x y = x * y := trunc8_toNat_mul x y
@[simp] theorem aluInc_eq (x : Byte) : aluInc x = x + 1 := trunc8_toNat_add_one x
@[simp] theorem aluDec_eq (x : Byte) : aluDec x = x - 1 := trunc8_toNat_sub_one x

@[simp] theorem aluDiv_eq (x y : Byte) : aluDiv x y = x / y := by
  apply BitVec.eq_of_toNat_eq
  simp only [aluDiv, BitVec.toNat_ofNat, BitVec.toNat_udiv]
  exact Nat.mod_eq_of_lt ((Nat.div_le_self _ _).trans_lt x.isLt)

@[simp] theorem aluMod_eq (x y : Byte) : aluMod x y = x % y := by
  apply BitVec.eq_of_toNat_eq
  simp only [aluMod, BitVec.toNat_ofNat, BitVec.toNat_umod]
  exact Nat.mod_eq_of_lt ((Nat.mod_le _ _).trans_lt x.isLt)

/-- The bit that CMP sets is one of three. -/
theorem compareFlag_cases (x y : Byte) :
    (x = y ∧ compareFlag x y = 0x01) ∨ (y < x ∧ compareFlag x y = 0x02) ∨ (x < y ∧ compareFlag x y = 0x04) := by
  by_cases h : x = y
  · exact .inl ⟨h, if_pos h⟩
  · by_cases g : x.toNat > y.toNat
    · exact .inr (.inl ⟨g, by simp [compareFlag, h, g, flagGreater]⟩)
    · have : x.toNat ≠ y.toNat := fun e => h (BitVec.eq_of_toNat_eq e)
      exact .inr (.inr ⟨by show x.toNat < y.toNat; omega, by simp [compareFlag, h, g, flagLess]⟩)

/-! ## The program counter and the stack pointer -/

/-- The operand count, as the field it is. -/
theorem operandCount_eq (op : Byte) : operandCount op = ((op >>> 5) &&& 0x03).toNat := by
  revert op; decide

/-- The auto-advance, as byte arithmetic. -/
@[simp] theorem State.autoAdvance_pc (s : State) : s.autoAdvance.pc = s.pc + ((s.ir >>> 5) &&& 0x03) + 1 := by
  have h := operandCount_eq s.ir
  apply BitVec.eq_of_toNat_eq
  simp only [State.autoAdvance, trunc8, BitVec.toNat_ofInt, BitVec.toNat_add, h]
  have : (1 : Byte).toNat = 1 := rfl
  omega

@[simp] theorem State.decrementSp_regs (s : State) : s.decrementSp.regs = s.regs.set 7 (s.regs[7] - 1) := by
  simp only [State.decrementSp, State.setReg_regs, State.reg, spIndex, trunc8_toNat_sub_one]; rfl

@[simp] theorem State.incrementSp_regs (s : State) : s.incrementSp.regs = s.regs.set 7 (s.regs[7] + 1) := by
  simp only [State.incrementSp, State.setReg_regs, State.reg, spIndex, trunc8_toNat_add_one]; rfl

@[simp] theorem State.pushReady_regs (s : State) : s.pushReady.regs = s.regs.set 7 (s.regs[7] - 1) :=
  s.decrementSp_regs

/-- A push writes at the decremented stack pointer. -/
@[simp] theorem State.pushReady_stackAddress (s : State) : s.pushReady.stackAddress = (s.regs[7] - 1).toNat := by
  simp only [State.stackAddress, State.reg, State.pushReady_regs, spIndex]
  exact congrArg BitVec.toNat (Vector.getElem_set_self _)

@[simp] theorem State.stackAddress_eq (s : State) : s.stackAddress = s.regs[7].toNat := rfl

@[simp] theorem State.readTop_eq (s : State) : s.readTop = Memory.read s.mem s.regs[7].toNat := rfl

@[simp] theorem State.returnAddress_eq (s : State) : s.returnAddress = s.pc + 2 := trunc8_toNat_add_two s.pc

/-! ## The operand forms -/

theorem regIndex_of_lt {b : Byte} (h : b.toNat < 8) : regIndex b = some ⟨b.toNat, h⟩ := dif_pos h

theorem regIndex_of_not_lt {b : Byte} (h : ¬ b.toNat < 8) : regIndex b = none := dif_neg h

theorem withReg_of_lt {a : Byte} (h : a.toNat < 8) (s : State) (k : RegIndex → StepOutcome) :
    withReg a s k = k ⟨a.toNat, h⟩ := by
  simp only [withReg, regIndex_of_lt h]

theorem withReg_of_not_lt {a : Byte} (h : ¬ a.toNat < 8) (s : State) (k : RegIndex → StepOutcome) :
    withReg a s k = .next (raise .invalidRegister s) := by
  simp only [withReg, regIndex_of_not_lt h]

theorem withRegs_of_lt {a b : Byte} (ha : a.toNat < 8) (hb : b.toNat < 8) (s : State)
    (k : RegIndex → RegIndex → StepOutcome) : withRegs a b s k = k ⟨a.toNat, ha⟩ ⟨b.toNat, hb⟩ := by
  simp only [withRegs, withReg_of_lt ha, withReg_of_lt hb]

theorem withRegs_of_not_lt {a b : Byte} (h : ¬ (a.toNat < 8 ∧ b.toNat < 8)) (s : State)
    (k : RegIndex → RegIndex → StepOutcome) : withRegs a b s k = .next (raise .invalidRegister s) := by
  by_cases ha : a.toNat < 8
  · have hb : ¬ b.toNat < 8 := fun hb => h ⟨ha, hb⟩
    simp only [withRegs, withReg_of_lt ha, withReg_of_not_lt hb]
  · simp only [withRegs, withReg_of_not_lt ha]

/-- All that one register operand can do: name a register and run on it, or take InvalidRegister. -/
theorem withReg_cases {a : Byte} {s t : State} {k : RegIndex → StepOutcome} (h : withReg a s k = .next t) :
    (∃ ha : a.toNat < 8, k ⟨a.toNat, ha⟩ = .next t) ∨ (¬ a.toNat < 8 ∧ t = raise .invalidRegister s) := by
  by_cases ha : a.toNat < 8
  · exact .inl ⟨ha, withReg_of_lt ha s k ▸ h⟩
  · rw [withReg_of_not_lt ha] at h; cases h; exact .inr ⟨ha, rfl⟩

/-- All that two register operands can do. -/
theorem withRegs_cases {a b : Byte} {s t : State} {k : RegIndex → RegIndex → StepOutcome}
    (h : withRegs a b s k = .next t) :
    (∃ (ha : a.toNat < 8) (hb : b.toNat < 8), k ⟨a.toNat, ha⟩ ⟨b.toNat, hb⟩ = .next t) ∨
      (¬ (a.toNat < 8 ∧ b.toNat < 8) ∧ t = raise .invalidRegister s) := by
  by_cases hab : a.toNat < 8 ∧ b.toNat < 8
  · exact .inl ⟨hab.1, hab.2, withRegs_of_lt hab.1 hab.2 s k ▸ h⟩
  · rw [withRegs_of_not_lt hab] at h; cases h; exact .inr ⟨hab, rfl⟩

end Sys2Proof.Machine
end

