-- ==== Sys2Proof/Laws/Exec.lean ====
section
/-! SUPPORT. Everything an instruction can do, said once (`exec_shape`): each next state is one of thirteen updates.
Claims about all instructions are proved by cases on the shape, without unfolding a meaning. -/

namespace Sys2Proof.Machine

/-- The ways in which an instruction leads from `s` to a next state. -/
inductive ExecShape (s : State) : Instr → State → Prop
  | invalid {i : Instr} (h : i.wellFormed = false) : ExecShape s i (raise .invalidRegister s)
  | divZero {i : Instr} (h : i.opcode = 0xC3 ∨ i.opcode = 0xC4) : ExecShape s i (raise .divZero s).autoAdvance
  | halted : ExecShape s .hlt (s.halt .hlt).autoAdvance
  | plain {i : Instr} (h : i.opcode ≠ 0x30 ∧ i.opcode ≠ 0x10 ∧ i.opcode ≠ 0x31 ∧ i.opcode ≠ 0x01) :
      ExecShape s i s.autoAdvance
  | register {i : Instr} {r : RegIndex} (h : mayWriteReg i r.val = true) (v : Byte) :
      ExecShape s i (s.setReg r v).autoAdvance
  | flags {a b : Byte} (x y : Byte) : ExecShape s (.cmp a b) (s.orFlags (compareFlag x y)).autoAdvance
  | print {a : Byte} (v : Byte) : ExecShape s (.prn a) (s.emitConsole (.dec v)).autoAdvance
  | printChar {a : Byte} (v : Byte) : ExecShape s (.pra a) (s.emitConsole (.chr v)).autoAdvance
  | store {a b : Byte} {r : RegIndex} (h : regIndex a = some r) (v : Byte) :
      ExecShape s (.st a b) (s.writeMem (s.indirectAddress r) v).autoAdvance
  | push {a : Byte} (v : Byte) : ExecShape s (.push a) (s.pushReady.writeTop v).autoAdvance
  | pop {a : Byte} (h : a.toNat < 8) :
      ExecShape s (.pop a) (s.incrementSp.setReg ⟨a.toNat, h⟩ s.readTop).autoAdvance
  | jump {i : Instr} (h : i.opcode ∈ [0x31, 0x32, 0x33, 0x34, 0x35]) (r : RegIndex) :
      ExecShape s i (s.jumpTo (s.reg r))
  | call {a : Byte} (r : RegIndex) :
      ExecShape s (.call a) ((s.pushReady.writeTop s.returnAddress).jumpTo ((s.pushReady.writeTop s.returnAddress).reg r))
  | ret : ExecShape s .ret (s.incrementSp.jumpTo s.readTop)

/-- One register operand: the instruction is well formed exactly if the operand names a register. -/
theorem wellFormed_of_one {i : Instr} {a : Byte} (hi : i.regOperands = [a]) :
    i.wellFormed = true ↔ a.toNat < 8 := by
  simp [Instr.wellFormed, hi, regOperandOk]

/-- Two register operands: both must name a register. -/
theorem wellFormed_of_two {i : Instr} {a b : Byte} (hi : i.regOperands = [a, b]) :
    i.wellFormed = true ↔ a.toNat < 8 ∧ b.toNat < 8 := by
  simp [Instr.wellFormed, hi, regOperandOk]

theorem not_wellFormed_of_one {i : Instr} {a : Byte} (hi : i.regOperands = [a]) (h : ¬ a.toNat < 8) :
    i.wellFormed = false := by
  rw [← Bool.not_eq_true, wellFormed_of_one hi]; exact h

theorem not_wellFormed_of_two {i : Instr} {a b : Byte} (hi : i.regOperands = [a, b])
    (h : ¬ (a.toNat < 8 ∧ b.toNat < 8)) : i.wellFormed = false := by
  rw [← Bool.not_eq_true, wellFormed_of_two hi]; exact h

/-! ## The shapes shared by several instructions -/

variable {s t : State} {i : Instr} {a b : Byte}

theorem aluBinary_shape {f : Byte → Byte → Byte} (hi : i.regOperands = [a, b])
    (hw : mayWriteReg i a.toNat = true) (h : aluBinary f a b s = .next t) : ExecShape s i t := by
  obtain ⟨ha, hb, h⟩ | ⟨hn, rfl⟩ := withRegs_cases h
  · cases h; exact .register hw _
  · exact .invalid (not_wellFormed_of_two hi hn)

theorem aluUnary_shape {f : Byte → Byte} (hi : i.regOperands = [a])
    (hw : mayWriteReg i a.toNat = true) (h : aluUnary f a s = .next t) : ExecShape s i t := by
  obtain ⟨ha, h⟩ | ⟨hn, rfl⟩ := withReg_cases h
  · cases h; exact .register hw _
  · exact .invalid (not_wellFormed_of_one hi hn)

theorem aluDivide_shape {f : Byte → Byte → Byte} (hi : i.regOperands = [a, b])
    (hw : mayWriteReg i a.toNat = true) (ho : i.opcode = 0xC3 ∨ i.opcode = 0xC4)
    (h : aluDivide f a b s = .next t) : ExecShape s i t := by
  obtain ⟨ha, hb, h⟩ | ⟨hn, rfl⟩ := withRegs_cases h
  · split at h
    · cases h; exact .divZero ho
    · cases h; exact .register hw _
  · exact .invalid (not_wellFormed_of_two hi hn)

theorem jumpIfFlagsAre_shape {mask : Byte} (hi : i.regOperands = [a])
    (ho : i.opcode ∈ [0x32, 0x33, 0x34, 0x35]) (h : jumpIfFlagsAre mask a s = .next t) : ExecShape s i t := by
  obtain ⟨ha, h⟩ | ⟨hn, rfl⟩ := withReg_cases h
  · simp only [Host.Outcome.next.injEq] at h
    subst h
    split
    · exact .jump (List.mem_cons_of_mem _ ho) _
    · exact .plain (by revert ho; generalize i.opcode = o; revert o; decide)
  · exact .invalid (not_wellFormed_of_one hi hn)

/-- Everything an instruction can do when it answers a next state. -/
theorem exec_shape (h : exec i s = .next t) : ExecShape s i t := by
  cases i with
  | nop => cases h; exact .plain (by decide)
  | hlt => cases h; exact .halted
  | iret => cases h; exact .plain (by decide)
  | ret => cases h; exact .ret
  | prn a =>
    obtain ⟨ha, h⟩ | ⟨hn, rfl⟩ := withReg_cases h
    · cases h; exact .print _
    · exact .invalid (not_wellFormed_of_one rfl hn)
  | pra a =>
    obtain ⟨ha, h⟩ | ⟨hn, rfl⟩ := withReg_cases h
    · cases h; exact .printChar _
    · exact .invalid (not_wellFormed_of_one rfl hn)
  | push a =>
    obtain ⟨ha, h⟩ | ⟨hn, rfl⟩ := withReg_cases h
    · cases h; exact .push _
    · exact .invalid (not_wellFormed_of_one rfl hn)
  | pop a =>
    obtain ⟨ha, h⟩ | ⟨hn, rfl⟩ := withReg_cases h
    · cases h; exact .pop ha
    · exact .invalid (not_wellFormed_of_one rfl hn)
  | call a =>
    obtain ⟨ha, h⟩ | ⟨hn, rfl⟩ := withReg_cases h
    · cases h; exact .call _
    · exact .invalid (not_wellFormed_of_one rfl hn)
  | jmp a =>
    obtain ⟨ha, h⟩ | ⟨hn, rfl⟩ := withReg_cases h
    · cases h; exact .jump (List.mem_of_elem_eq_true rfl) _
    · exact .invalid (not_wellFormed_of_one rfl hn)
  | jeq a => exact jumpIfFlagsAre_shape rfl (List.mem_of_elem_eq_true rfl) h
  | jne a => exact jumpIfFlagsAre_shape rfl (List.mem_of_elem_eq_true rfl) h
  | jgt a => exact jumpIfFlagsAre_shape rfl (List.mem_of_elem_eq_true rfl) h
  | jlt a => exact jumpIfFlagsAre_shape rfl (List.mem_of_elem_eq_true rfl) h
  | ldi a lit =>
    obtain ⟨ha, h⟩ | ⟨hn, rfl⟩ := withReg_cases h
    · cases h; exact .register (i := .ldi a lit) (r := ⟨a.toNat, ha⟩) (decide_eq_true rfl) _
    · exact .invalid (not_wellFormed_of_one rfl hn)
  | ld a b =>
    obtain ⟨ha, hb, h⟩ | ⟨hn, rfl⟩ := withRegs_cases h
    · cases h; exact .register (i := .ld a b) (r := ⟨a.toNat, ha⟩) (decide_eq_true rfl) _
    · exact .invalid (not_wellFormed_of_two rfl hn)
  | st a b =>
    obtain ⟨ha, hb, h⟩ | ⟨hn, rfl⟩ := withRegs_cases h
    · cases h; exact .store (regIndex_of_lt ha) _
    · exact .invalid (not_wellFormed_of_two rfl hn)
  | not a => exact aluUnary_shape rfl (decide_eq_true rfl) h
  | inc a => exact aluUnary_shape rfl (decide_eq_true rfl) h
  | dec a => exact aluUnary_shape rfl (decide_eq_true rfl) h
  | add a b => exact aluBinary_shape rfl (decide_eq_true rfl) h
  | sub a b => exact aluBinary_shape rfl (decide_eq_true rfl) h
  | mul a b => exact aluBinary_shape rfl (decide_eq_true rfl) h
  | div a b => exact aluDivide_shape rfl (decide_eq_true rfl) (.inl rfl) h
  | mod a b => exact aluDivide_shape rfl (decide_eq_true rfl) (.inr rfl) h
  | and a b => exact aluBinary_shape rfl (decide_eq_true rfl) h
  | or a b => exact aluBinary_shape rfl (decide_eq_true rfl) h
  | xor a b => exact aluBinary_shape rfl (decide_eq_true rfl) h
  | cmp a b =>
    obtain ⟨ha, hb, h⟩ | ⟨hn, rfl⟩ := withRegs_cases h
    · cases h; exact .flags _ _
    · exact .invalid (not_wellFormed_of_two rfl hn)

/-! ## Every instruction answers a next state -/

theorem withReg_next {k : RegIndex → StepOutcome} (hk : ∀ r, ∃ t, k r = .next t) : ∃ t, withReg a s k = .next t := by
  by_cases h : a.toNat < 8
  · rw [withReg_of_lt h]; exact hk _
  · rw [withReg_of_not_lt h]; exact ⟨_, rfl⟩

theorem withRegs_next {k : RegIndex → RegIndex → StepOutcome} (hk : ∀ r q, ∃ t, k r q = .next t) :
    ∃ t, withRegs a b s k = .next t :=
  withReg_next fun r => withReg_next fun q => hk r q

theorem aluDivide_next {f : Byte → Byte → Byte} : ∃ t, aluDivide f a b s = .next t :=
  withRegs_next fun _ _ => by split <;> exact ⟨_, rfl⟩

/-- No instruction faults or is refused; the premise `exec i s = .next t` of `exec_shape` can always be met. -/
theorem exec_next (i : Instr) (s : State) : ∃ t, exec i s = .next t := by
  cases i
  case div => exact aluDivide_next
  case mod => exact aluDivide_next
  all_goals first
    | exact ⟨_, rfl⟩
    | exact withReg_next fun _ => ⟨_, rfl⟩
    | exact withRegs_next fun _ _ => ⟨_, rfl⟩

end Sys2Proof.Machine
end

