-- ==== Sys2Proof/Laws/Memory.lean ====
section
/-! SUPPORT. The laws of memory: what a read gives after a write, that reads and writes take addresses mod 256, and that
every memory operation keeps the canonical form (spec/20_memory.md R30 to R34). The read laws hold of every list, in
canonical form or not. -/

namespace Sys2Proof.Machine

/-! ## Lookup after erase and insert -/

theorem Memory.lookup_erase (m : Memory) (a b : Nat) :
    Memory.lookup (Memory.erase a m) b = if a = b then Config.unlistedByte else Memory.lookup m b := by
  induction m with
  | nil => simp [Memory.erase, Memory.lookup]
  | cons c m ih =>
    by_cases hc : c.1 = a
    · simp only [Memory.erase, hc, if_true, ih, Memory.lookup]
      split <;> simp_all
    · simp only [Memory.erase, if_neg hc, Memory.lookup, ih]
      by_cases hb : c.1 = b
      · have : a ≠ b := fun h => hc (hb.trans h.symm)
        simp [hb, this]
      · simp [hb]

theorem Memory.lookup_insert_same (m : Memory) (a : Nat) (v : Byte)
    (h : ∀ c ∈ m, c.1 ≠ a) : Memory.lookup (Memory.insert a v m) a = v := by
  induction m with
  | nil => simp [Memory.insert, Memory.lookup]
  | cons c m ih =>
    have hc : c.1 ≠ a := h c (by simp)
    have := ih fun d hd => h d (by simp [hd])
    simp only [Memory.insert]
    split <;> simp [Memory.lookup, hc, this]

theorem Memory.lookup_insert_ne (m : Memory) {a b : Nat} (v : Byte) (h : a ≠ b) :
    Memory.lookup (Memory.insert a v m) b = Memory.lookup m b := by
  induction m with
  | nil => simp [Memory.insert, Memory.lookup, h]
  | cons c m ih =>
    simp only [Memory.insert]
    split <;> simp [Memory.lookup, h, ih]

theorem Memory.not_mem_erase (m : Memory) (a : Nat) : ∀ c ∈ Memory.erase a m, c.1 ≠ a := by
  induction m with
  | nil => simp [Memory.erase]
  | cons c m ih =>
    simp only [Memory.erase]
    split
    · exact ih
    · simp only [List.mem_cons]
      rintro d (rfl | hd)
      · assumption
      · exact ih d hd

/-! ## Reads after writes -/

/-- All that a write does to reads: the byte at the written cell is the value written, every other byte is as it was. -/
theorem Memory.read_write (m : Memory) (a b : Nat) (v : Byte) :
    Memory.read (Memory.write m a v) b = if a % 256 = b % 256 then v else Memory.read m b := by
  simp only [Memory.read, Memory.write]
  by_cases hv : v = Config.unlistedByte
  · rw [if_pos hv, Memory.lookup_erase, hv]
  · rw [if_neg hv]
    by_cases h : a % 256 = b % 256
    · rw [if_pos h, h, Memory.lookup_insert_same _ _ _ (Memory.not_mem_erase m _)]
    · rw [if_neg h, Memory.lookup_insert_ne _ _ h, Memory.lookup_erase, if_neg h]

@[simp] theorem Memory.read_write_same (m : Memory) (a : Nat) (v : Byte) :
    Memory.read (Memory.write m a v) a = v := by
  rw [Memory.read_write, if_pos rfl]

theorem Memory.read_write_ne (m : Memory) {a b : Nat} (v : Byte) (h : a % 256 ≠ b % 256) :
    Memory.read (Memory.write m a v) b = Memory.read m b := by
  rw [Memory.read_write, if_neg h]

/-- A read takes its address mod 256. -/
theorem Memory.read_mod (m : Memory) (a : Nat) : Memory.read m (a % 256) = Memory.read m a := by
  simp only [Memory.read, Nat.mod_mod]

/-- A write of bytes to consecutive addresses leaves every cell outside them as it was. -/
theorem Memory.read_writeBytes_ne (bs : List Byte) (m : Memory) (a b : Nat)
    (h : ∀ k, k < bs.length → (a + k) % 256 ≠ b % 256) :
    Memory.read (Memory.writeBytes m a bs) b = Memory.read m b := by
  induction bs generalizing m a with
  | nil => rfl
  | cons v vs ih =>
    rw [Memory.writeBytes, ih, Memory.read_write_ne]
    · simpa using h 0 (by simp)
    · intro k hk
      have := h (k + 1) (by simpa using hk)
      rwa [show a + (k + 1) = a + 1 + k by omega] at this

/-- The memory of a boot state, as the loader left it. -/
@[simp] theorem State.boot_mem (image : List Byte) : (State.boot image).mem = loadProgram image [] := rfl

/-! ## The canonical form -/

/-- Strictly rising, as a proposition on pairs of neighbours. -/
theorem Memory.rising_cons (c : Host.Cell) (m : Memory) :
    Memory.rising (c :: m) = true ↔ (∀ d ∈ m.head?, c.1 < d.1) ∧ Memory.rising m = true := by
  cases m <;> simp [Memory.rising]

/-- In a rising list every address is above the first. -/
theorem Memory.rising_head_lt {c : Host.Cell} {m : Memory} (h : Memory.rising (c :: m) = true) :
    ∀ d ∈ m, c.1 < d.1 := by
  induction m generalizing c with
  | nil => simp
  | cons d m ih =>
    obtain ⟨hd, hr⟩ := (Memory.rising_cons c (d :: m)).1 h
    have hcd : c.1 < d.1 := hd d (by simp)
    simp only [List.mem_cons]
    rintro e (rfl | he)
    · exact hcd
    · exact hcd.trans (ih hr e he)

theorem Memory.rising_cons_of_lt {c : Host.Cell} {m : Memory} (hm : Memory.rising m = true)
    (h : ∀ d ∈ m, c.1 < d.1) : Memory.rising (c :: m) = true :=
  (Memory.rising_cons c m).2 ⟨fun d hd => h d (List.mem_of_mem_head? hd), hm⟩

theorem Memory.mem_erase {m : Memory} {a : Nat} {c : Host.Cell} (h : c ∈ Memory.erase a m) : c ∈ m := by
  induction m with
  | nil => simp [Memory.erase] at h
  | cons d m ih =>
    simp only [Memory.erase] at h
    split at h
    · exact List.mem_cons_of_mem _ (ih h)
    · rcases List.mem_cons.1 h with rfl | h
      · simp
      · exact List.mem_cons_of_mem _ (ih h)

theorem Memory.mem_insert {m : Memory} {a : Nat} {v : Byte} {c : Host.Cell} (h : c ∈ Memory.insert a v m) :
    c = (a, v) ∨ c ∈ m := by
  induction m with
  | nil => simpa [Memory.insert] using h
  | cons d m ih =>
    simp only [Memory.insert] at h
    split at h
    · simpa [or_assoc] using h
    · rcases List.mem_cons.1 h with rfl | h
      · simp
      · rcases ih h with h | h <;> simp [h]

theorem Memory.rising_erase {m : Memory} (a : Nat) (h : Memory.rising m = true) :
    Memory.rising (Memory.erase a m) = true := by
  induction m with
  | nil => rfl
  | cons c m ih =>
    have hm := ih ((Memory.rising_cons c m).1 h).2
    simp only [Memory.erase]
    split
    · exact hm
    · exact Memory.rising_cons_of_lt hm fun d hd => Memory.rising_head_lt h d (Memory.mem_erase hd)

theorem Memory.rising_insert {m : Memory} (a : Nat) (v : Byte) (h : Memory.rising m = true)
    (ha : ∀ c ∈ m, c.1 ≠ a) : Memory.rising (Memory.insert a v m) = true := by
  induction m with
  | nil => rfl
  | cons c m ih =>
    simp only [Memory.insert]
    split
    · rename_i hac
      refine Memory.rising_cons_of_lt h fun d hd => ?_
      rcases List.mem_cons.1 hd with rfl | hd
      · exact hac
      · exact hac.trans (Memory.rising_head_lt h d hd)
    · rename_i hac
      have hca : c.1 < a := by have := ha c (by simp); omega
      refine Memory.rising_cons_of_lt
        (ih ((Memory.rising_cons c m).1 h).2 fun d hd => ha d (by simp [hd])) fun d hd => ?_
      rcases Memory.mem_insert hd with rfl | hd
      · exact hca
      · exact Memory.rising_head_lt h d hd

/-- The canonical form as a proposition. -/
theorem Memory.wf_iff (m : Memory) :
    Memory.wf m = true ↔ Memory.rising m = true ∧ ∀ c ∈ m, c.1 < 256 ∧ c.2 ≠ Config.unlistedByte := by
  simp only [Memory.wf, Bool.and_eq_true, List.all_eq_true, decide_eq_true_eq]

/-- A write keeps the canonical form. -/
theorem Memory.wf_write {m : Memory} (a : Nat) (v : Byte) (h : Memory.wf m = true) :
    Memory.wf (Memory.write m a v) = true := by
  obtain ⟨hr, hc⟩ := (Memory.wf_iff m).1 h
  have he := Memory.rising_erase (a % 256) hr
  simp only [Memory.write]
  split
  · exact (Memory.wf_iff _).2 ⟨he, fun c hm => hc c (Memory.mem_erase hm)⟩
  · rename_i hv
    refine (Memory.wf_iff _).2 ⟨Memory.rising_insert _ _ he (Memory.not_mem_erase m _), fun c hm => ?_⟩
    rcases Memory.mem_insert hm with rfl | hm
    · exact ⟨Nat.mod_lt _ (by decide), hv⟩
    · exact hc c (Memory.mem_erase hm)

/-- So does a write of bytes to consecutive addresses, the loader's among them. -/
theorem Memory.wf_writeBytes (bs : List Byte) {m : Memory} (a : Nat) (h : Memory.wf m = true) :
    Memory.wf (Memory.writeBytes m a bs) = true := by
  induction bs generalizing m a with
  | nil => exact h
  | cons v vs ih => exact ih (a + 1) (Memory.wf_write a v h)

end Sys2Proof.Machine
end

