-- ==== Sys2Proof/Laws/PerInstr.lean ====
section
/-! SUPPORT. The fields of the opcode byte, instruction by instruction (spec/30_encoding.md R50, R52, R54): bits 6 and 5
count the operand bytes, bit 7 marks the ALU's instructions, bit 4 those that may supply an explicit pc, and the byte is
one of the 29. -/

namespace Sys2Proof.Laws.OpcodeFields

open Sys2Proof.Machine

/-- What the opcode byte of an instruction says of it. -/
def Statement (i : Instr) : Prop :=
  i.encode.length = operandCount i.opcode + 1 ∧ i.regOperands <+: i.encode.tail ∧
    opcodeIsAlu i.opcode = isAlu i ∧ opcodeMayJump i.opcode = isControlTransfer i ∧ i.opcode ∈ legalOpcodes

/-- With the opcode byte written out, each part is an evaluation. -/
theorem of_opcode {i : Instr} {op : Byte} {n : Nat} (h : i.opcode = op) (hlen : i.encode.length = n + 1)
    (hn : operandCount op = n)
    (hreg : i.regOperands <+: i.encode.tail) (halu : opcodeIsAlu op = isAlu i)
    (hjump : opcodeMayJump op = isControlTransfer i) (hlegal : op ∈ legalOpcodes) : Statement i := by
  subst h hn; exact ⟨hlen, hreg, halu, hjump, hlegal⟩

theorem nop : Statement .nop :=
  of_opcode (op := 0x00) (n := 0) rfl rfl (by decide) ⟨[], rfl⟩ rfl rfl (by decide)
theorem hlt : Statement .hlt :=
  of_opcode (op := 0x01) (n := 0) rfl rfl (by decide) ⟨[], rfl⟩ rfl rfl (by decide)
theorem iret : Statement .iret :=
  of_opcode (op := 0x02) (n := 0) rfl rfl (by decide) ⟨[], rfl⟩ rfl rfl (by decide)
theorem ret : Statement .ret :=
  of_opcode (op := 0x10) (n := 0) rfl rfl (by decide) ⟨[], rfl⟩ rfl rfl (by decide)
theorem prn (a : Byte) : Statement (.prn a) :=
  of_opcode (op := 0x20) (n := 1) rfl rfl (by decide) ⟨[], rfl⟩ rfl rfl (by decide)
theorem pra (a : Byte) : Statement (.pra a) :=
  of_opcode (op := 0x21) (n := 1) rfl rfl (by decide) ⟨[], rfl⟩ rfl rfl (by decide)
theorem push (a : Byte) : Statement (.push a) :=
  of_opcode (op := 0x22) (n := 1) rfl rfl (by decide) ⟨[], rfl⟩ rfl rfl (by decide)
theorem pop (a : Byte) : Statement (.pop a) :=
  of_opcode (op := 0x23) (n := 1) rfl rfl (by decide) ⟨[], rfl⟩ rfl rfl (by decide)
theorem call (a : Byte) : Statement (.call a) :=
  of_opcode (op := 0x30) (n := 1) rfl rfl (by decide) ⟨[], rfl⟩ rfl rfl (by decide)
theorem jmp (a : Byte) : Statement (.jmp a) :=
  of_opcode (op := 0x31) (n := 1) rfl rfl (by decide) ⟨[], rfl⟩ rfl rfl (by decide)
theorem jeq (a : Byte) : Statement (.jeq a) :=
  of_opcode (op := 0x32) (n := 1) rfl rfl (by decide) ⟨[], rfl⟩ rfl rfl (by decide)
theorem jne (a : Byte) : Statement (.jne a) :=
  of_opcode (op := 0x33) (n := 1) rfl rfl (by decide) ⟨[], rfl⟩ rfl rfl (by decide)
theorem jgt (a : Byte) : Statement (.jgt a) :=
  of_opcode (op := 0x34) (n := 1) rfl rfl (by decide) ⟨[], rfl⟩ rfl rfl (by decide)
theorem jlt (a : Byte) : Statement (.jlt a) :=
  of_opcode (op := 0x35) (n := 1) rfl rfl (by decide) ⟨[], rfl⟩ rfl rfl (by decide)
theorem ldi (a lit : Byte) : Statement (.ldi a lit) :=
  of_opcode (op := 0x40) (n := 2) rfl rfl (by decide) ⟨[lit], rfl⟩ rfl rfl (by decide)
theorem ld (a b : Byte) : Statement (.ld a b) :=
  of_opcode (op := 0x41) (n := 2) rfl rfl (by decide) ⟨[], rfl⟩ rfl rfl (by decide)
theorem st (a b : Byte) : Statement (.st a b) :=
  of_opcode (op := 0x42) (n := 2) rfl rfl (by decide) ⟨[], rfl⟩ rfl rfl (by decide)
theorem not (a : Byte) : Statement (.not a) :=
  of_opcode (op := 0xA0) (n := 1) rfl rfl (by decide) ⟨[], rfl⟩ rfl rfl (by decide)
theorem inc (a : Byte) : Statement (.inc a) :=
  of_opcode (op := 0xA1) (n := 1) rfl rfl (by decide) ⟨[], rfl⟩ rfl rfl (by decide)
theorem dec (a : Byte) : Statement (.dec a) :=
  of_opcode (op := 0xA2) (n := 1) rfl rfl (by decide) ⟨[], rfl⟩ rfl rfl (by decide)
theorem add (a b : Byte) : Statement (.add a b) :=
  of_opcode (op := 0xC0) (n := 2) rfl rfl (by decide) ⟨[], rfl⟩ rfl rfl (by decide)
theorem sub (a b : Byte) : Statement (.sub a b) :=
  of_opcode (op := 0xC1) (n := 2) rfl rfl (by decide) ⟨[], rfl⟩ rfl rfl (by decide)
theorem mul (a b : Byte) : Statement (.mul a b) :=
  of_opcode (op := 0xC2) (n := 2) rfl rfl (by decide) ⟨[], rfl⟩ rfl rfl (by decide)
theorem div (a b : Byte) : Statement (.div a b) :=
  of_opcode (op := 0xC3) (n := 2) rfl rfl (by decide) ⟨[], rfl⟩ rfl rfl (by decide)
theorem mod (a b : Byte) : Statement (.mod a b) :=
  of_opcode (op := 0xC4) (n := 2) rfl rfl (by decide) ⟨[], rfl⟩ rfl rfl (by decide)
theorem and (a b : Byte) : Statement (.and a b) :=
  of_opcode (op := 0xC5) (n := 2) rfl rfl (by decide) ⟨[], rfl⟩ rfl rfl (by decide)
theorem or (a b : Byte) : Statement (.or a b) :=
  of_opcode (op := 0xC6) (n := 2) rfl rfl (by decide) ⟨[], rfl⟩ rfl rfl (by decide)
theorem xor (a b : Byte) : Statement (.xor a b) :=
  of_opcode (op := 0xC7) (n := 2) rfl rfl (by decide) ⟨[], rfl⟩ rfl rfl (by decide)
theorem cmp (a b : Byte) : Statement (.cmp a b) :=
  of_opcode (op := 0xC8) (n := 2) rfl rfl (by decide) ⟨[], rfl⟩ rfl rfl (by decide)

end Sys2Proof.Laws.OpcodeFields
end

