-- ==== Sys2Proof/Laws/Shapes.lean ====
section
/-! SUPPORT. The result of each shared instruction shape on legal operands, as one record update of the old state. The
value an instruction computes is left to its own function. -/

namespace Sys2Proof.Machine

/-- The auto-advance changes `pc` alone. -/
theorem State.autoAdvance_eq (s : State) : s.autoAdvance = { s with pc := nextAddress s } := by
  have h := s.autoAdvance_pc
  simp only [State.autoAdvance] at h
  simp only [State.autoAdvance, nextAddress, h]

/-- A register by its operand byte. -/
theorem State.reg_mk (s : State) {b : Byte} (h : b.toNat < 8) : s.reg ⟨b.toNat, h⟩ = s.regs[b.toNat] := rfl

theorem aluBinary_of_lt (f : Byte → Byte → Byte) {a b : Byte} (ha : a.toNat < 8) (hb : b.toNat < 8) (s : State) :
    aluBinary f a b s = .next { s with
      regs := s.regs.set a.toNat (f s.regs[a.toNat] s.regs[b.toNat]), pc := nextAddress s } := by
  simp only [aluBinary, withRegs_of_lt ha hb, State.autoAdvance_eq]; rfl

theorem aluUnary_of_lt (f : Byte → Byte) {a : Byte} (ha : a.toNat < 8) (s : State) :
    aluUnary f a s = .next { s with regs := s.regs.set a.toNat (f s.regs[a.toNat]), pc := nextAddress s } := by
  simp only [aluUnary, withReg_of_lt ha, State.autoAdvance_eq]; rfl

/-- DIV and MOD by a non-zero divisor. -/
theorem aluDivide_of_ne (f : Byte → Byte → Byte) {a b : Byte} (ha : a.toNat < 8) (hb : b.toNat < 8) (s : State)
    (h : s.regs[b.toNat] ≠ 0) :
    aluDivide f a b s = .next { s with
      regs := s.regs.set a.toNat (f s.regs[a.toNat] s.regs[b.toNat]), pc := nextAddress s } := by
  rw [aluDivide, withRegs_of_lt ha hb]
  exact (if_neg h).trans (congrArg _ (State.autoAdvance_eq _))

/-- DIV and MOD by zero: the fault, then the advance. -/
theorem aluDivide_of_eq (f : Byte → Byte → Byte) {a b : Byte} (ha : a.toNat < 8) (hb : b.toNat < 8) (s : State)
    (h : s.regs[b.toNat] = 0) : aluDivide f a b s = .next { raise .divZero s with pc := nextAddress s } := by
  rw [aluDivide, withRegs_of_lt ha hb]
  exact (if_pos h).trans (congrArg _ (State.autoAdvance_eq _))

/-- A conditional jump on a legal operand. -/
theorem jumpIfFlagsAre_of_lt (mask : Byte) {a : Byte} (ha : a.toNat < 8) (s : State) :
    jumpIfFlagsAre mask a s = .next { s with pc := if s.fl = mask then s.regs[a.toNat] else nextAddress s } := by
  simp only [jumpIfFlagsAre, withReg_of_lt ha, State.flagsAre, decide_eq_true_eq, State.autoAdvance_eq]
  split <;> rfl

end Sys2Proof.Machine
end

