-- ==== Sys2Proof/Laws/Step.lean ====
section
/-! SUPPORT. What a step can do, said once. -/

namespace Sys2Proof.Machine

/-- The state in which the instruction runs: only `ir` is written. -/
theorem State.fetchOpcode_eq (s : State) : s.fetchOpcode = { s with ir := Memory.read s.mem s.pc.toNat } := rfl

/-- Everything a step can do when it answers a next state: nothing (halted), the illegal-opcode fault, or the decoded
instruction run with its opcode byte in `ir`. -/
theorem step_cases {s t : State} (h : step s = .next t) :
    (s.run = false ∧ t = s) ∨
    (s.run = true ∧ (∃ e, s.fetchOpcode.decodeFetched = .error e) ∧ t = raise .illegalOpcode s.fetchOpcode) ∨
    (s.run = true ∧ ∃ i, s.fetchOpcode.decodeFetched = .ok i ∧ i.opcode = s.fetchOpcode.ir ∧
      exec i s.fetchOpcode = .next t) := by
  unfold step at h
  split at h
  · rename_i hr
    split at h
    · rename_i i hd
      exact .inr (.inr ⟨hr, i, hd, opcode_of_decode hd, h⟩)
    · rename_i e hd
      cases h
      exact .inr (.inl ⟨hr, ⟨e, hd⟩, rfl⟩)
  · rename_i hr
    cases h
    exact .inl ⟨by simpa using hr, rfl⟩

/-- One more step in front of a run. -/
theorem run_succ {s t : State} (n : Nat) (h : step s = .next t) :
    Host.Core.run Sys2Proof.core (n + 1) s = Host.Core.run Sys2Proof.core n t := by
  have h' : Host.Core.step Sys2Proof.core s = .next t := h
  exact (Host.Core.run.eq_2 Sys2Proof.core s n).trans (by rw [h'])

/-- A step answers a next state; the premise of `step_cases` can always be met. -/
theorem step_next (s : State) : ∃ t, step s = .next t := by
  unfold step
  split
  · split
    · exact exec_next _ _
    · exact ⟨_, rfl⟩
  · exact ⟨_, rfl⟩

/-- The induction over a run, once: what every step keeps holds at the end if it holds at the start. -/
theorem run_induction {P : State → Prop} (keep : ∀ s t, P s → step s = .next t → P t) {n : Nat} {s t : State}
    (hs : P s) (h : Host.Core.run Sys2Proof.core n s = .next t) : P t := by
  induction n generalizing s with
  | zero => cases h; exact hs
  | succ n ih =>
    obtain ⟨u, hu⟩ := step_next s
    rw [run_succ n hu] at h
    exact ih (keep s u hs hu) h

end Sys2Proof.Machine
end

