-- ==== Sys2Proof/Machine/Assembly.lean ====
section
/-! DEFINITION. The assembler spelling of an instruction (spec/30_encoding.md R61): mnemonic, then operands in memory
order, registers as `r0` to `r7`, a literal as a number. It adds no semantics. -/

namespace Sys2Proof.Machine

/-- The mnemonic of spec/30_encoding.md R55. -/
def mnemonic : Instr → String
  | .nop => "NOP"
  | .hlt => "HLT"
  | .iret => "IRET"
  | .ret => "RET"
  | .prn _ => "PRN"
  | .pra _ => "PRA"
  | .push _ => "PUSH"
  | .pop _ => "POP"
  | .call _ => "CALL"
  | .jmp _ => "JMP"
  | .jeq _ => "JEQ"
  | .jne _ => "JNE"
  | .jgt _ => "JGT"
  | .jlt _ => "JLT"
  | .ldi _ _ => "LDI"
  | .ld _ _ => "LD"
  | .st _ _ => "ST"
  | .not _ => "NOT"
  | .inc _ => "INC"
  | .dec _ => "DEC"
  | .add _ _ => "ADD"
  | .sub _ _ => "SUB"
  | .mul _ _ => "MUL"
  | .div _ _ => "DIV"
  | .mod _ _ => "MOD"
  | .and _ _ => "AND"
  | .or _ _ => "OR"
  | .xor _ _ => "XOR"
  | .cmp _ _ => "CMP"

/-- The spelling of a register operand. -/
def asmReg (b : Byte) : String := "r" ++ toString b.toNat

/-- The operands as written: registers, and the literal of LDI as a number. -/
def asmOperands : Instr → List String
  | .ldi a lit => [asmReg a, toString lit.toNat]
  | i => i.regOperands.map asmReg

/-- The instruction as text, for example "LDI r0,8". -/
def asmText (i : Instr) : String :=
  match asmOperands i with
  | [] => mnemonic i
  | ops => mnemonic i ++ " " ++ String.intercalate "," ops

end Sys2Proof.Machine
end

