-- ==== Sys2Proof/Tests/Slice0.lean ====
section
/-! SUPPORT. Tests of the model on small states, with the expected results of spec/95_test_vectors.md (the vector is named
at each test), and a witness for every statement of Obligations.lean that has hypotheses. -/

namespace Sys2Proof.Machine.Tests

/-- The reset state with the image loaded at address 0 and some registers set. -/
def boot (image : List Byte) (rs : List (RegIndex × Byte)) : State :=
  rs.foldl (fun s p => s.setReg p.1 p.2) (State.boot image)

/-- The same with the bytes at `pc` instead, and `pc` there. -/
def bootAt (pc : Byte) (bytes : List Byte) (rs : List (RegIndex × Byte)) : State :=
  { boot [] rs with pc := pc, mem := Memory.writeBytes [] pc.toNat bytes }

/-- The outcome is a next state of which `p` holds. -/
def gives (o : StepOutcome) (p : State → Bool) : Bool :=
  match o with
  | .next t => p t
  | .fault _ => false
  | .refused _ => false

/-! ## Decoding: every opcode byte as the encoding column of spec/opcode_table.json writes it -/

theorem test_decode_format_z :
    decode 0b00000000 0 0 = .ok .nop ∧ decode 0b00000001 0 0 = .ok .hlt ∧
    decode 0b00000010 0 0 = .ok .iret ∧ decode 0b00010000 0 0 = .ok .ret := by decide

theorem test_decode_output_and_stack :
    decode 0b00100000 0b00000101 0 = .ok (.prn 5) ∧ decode 0b00100001 0b00000011 0 = .ok (.pra 3) ∧
    decode 0b00100010 0b00000110 0 = .ok (.push 6) ∧ decode 0b00100011 0b00000001 0 = .ok (.pop 1) := by decide

theorem test_decode_control_transfer :
    decode 0b00110000 0b00000001 0 = .ok (.call 1) ∧ decode 0b00110001 0b00000010 0 = .ok (.jmp 2) ∧
    decode 0b00110010 0b00000011 0 = .ok (.jeq 3) ∧ decode 0b00110011 0b00000100 0 = .ok (.jne 4) ∧
    decode 0b00110100 0b00000101 0 = .ok (.jgt 5) ∧ decode 0b00110101 0b00000110 0 = .ok (.jlt 6) := by decide

theorem test_decode_load_store :
    decode 0b01000000 0b00000011 0b11111111 = .ok (.ldi 3 255) ∧
    decode 0b01000001 0b00000000 0b00000001 = .ok (.ld 0 1) ∧
    decode 0b01000010 0b00000100 0b00000110 = .ok (.st 4 6) := by decide

theorem test_decode_alu_unary :
    decode 0b10100000 0b00000010 0 = .ok (.not 2) ∧ decode 0b10100001 0b00000011 0 = .ok (.inc 3) ∧
    decode 0b10100010 0b00000111 0 = .ok (.dec 7) := by decide

theorem test_decode_alu_binary :
    decode 0b11000000 0b00000000 0b00000001 = .ok (.add 0 1) ∧ decode 0b11000001 0b00000101 0b00000100 = .ok (.sub 5 4) ∧
    decode 0b11000010 0b00000010 0b00000011 = .ok (.mul 2 3) ∧ decode 0b11000011 0b00000001 0b00000000 = .ok (.div 1 0) ∧
    decode 0b11000100 0b00000110 0b00000111 = .ok (.mod 6 7) ∧ decode 0b11000101 0b00000000 0b00000010 = .ok (.and 0 2) ∧
    decode 0b11000110 0b00000011 0b00000001 = .ok (.or 3 1) ∧ decode 0b11000111 0b00000100 0b00000000 = .ok (.xor 4 0) ∧
    decode 0b11001000 0b00000111 0b00000001 = .ok (.cmp 7 1) := by decide

/-- V111 to V115: bytes beside the assigned ones. -/
theorem test_decode_refuses :
    decode 0x03 0 0 = .error (.illegalOpcode 0x03) ∧ decode 0x60 0 0 = .error (.illegalOpcode 0x60) ∧
    decode 0xE0 0 0 = .error (.illegalOpcode 0xE0) ∧ decode 0x80 0 0 = .error (.illegalOpcode 0x80) ∧
    decode 0xC9 0 1 = .error (.illegalOpcode 0xC9) := by decide

/-- The opcode table's bit numbering: the second byte is bits 15 to 8, the third bits 23 to 16. -/
theorem test_decode_table_word :
    decodeTableWord 24 0x0405C1 = some (.sub 5 4) ∧ decodeTableWord 16 0x0622 = some (.push 6) ∧
    decodeTableWord 8 0x10 = some .ret ∧ decodeTableWord 8 0x03 = none := by decide

/-- spec/30_encoding.md R52: the class bits of CALL and of CMP. -/
theorem test_opcode_fields :
    (opcodeIsAlu 0x30, operandCount 0x30, opcodeMayJump 0x30, opcodeSelector 0x30) = (false, 1, true, 0) ∧
    (opcodeIsAlu 0xC8, operandCount 0xC8, opcodeMayJump 0xC8, opcodeSelector 0xC8) = (true, 2, false, 8) := by decide

/-- P1 of spec/95_test_vectors.md, as it writes its instructions. -/
theorem test_assembly_text :
    asmText (.ldi 0 8) = "LDI r0,8" ∧ asmText (.prn 0) = "PRN r0" ∧ asmText .hlt = "HLT" ∧
    asmText (.cmp 0 2) = "CMP r0,r2" := by decide

/-! ## Well-formedness: each check refuses an ill-formed term -/

theorem smoke_format_r_operand : (Instr.prn 8).wellFormed = false ∧ (Instr.jeq 255).wellFormed = false ∧
    (Instr.prn 7).wellFormed = true := by decide

theorem smoke_format_rr_first_operand : (Instr.div 9 1).wellFormed = false ∧ (Instr.ld 8 0).wellFormed = false := by decide

theorem smoke_format_rr_second_operand : (Instr.st 0 9).wellFormed = false ∧ (Instr.add 7 8).wellFormed = false ∧
    (Instr.add 7 7).wellFormed = true := by decide

theorem smoke_ldi_checks_the_register_only : (Instr.ldi 8 0).wellFormed = false ∧ (Instr.ldi 3 255).wellFormed = true := by
  decide

theorem smoke_memory_form : Memory.wf [(4, 1), (3, 1)] = false ∧ Memory.wf [(3, 1), (3, 1)] = false ∧
    Memory.wf [(3, 0)] = false ∧ Memory.wf [(256, 1)] = false ∧ Memory.wf [(3, 1), (255, 9)] = true := by decide

/-! ## ALU -/

/-- V3, E2. -/
theorem test_add_masks : gives (step (boot [0xC0, 0x00, 0x01] [(0, 200), (1, 100)]))
    (fun t => t.reg 0 = 44 && t.reg 1 = 100 && t.pc = 3 && t.fl = 0) = true := by decide

/-- V4: the source is also the destination. -/
theorem test_add_same_register : gives (step (boot [0xC0, 0x02, 0x02] [(2, 0x90)])) (fun t => t.reg 2 = 0x20) = true := by
  decide

/-- V7. -/
theorem test_sub_borrows : gives (step (boot [0xC1, 0x00, 0x01] [(0, 5), (1, 10)])) (fun t => t.reg 0 = 251) = true := by
  decide

/-- V12. -/
theorem test_mul_masks : gives (step (boot [0xC2, 0x00, 0x01] [(0, 255), (1, 255)])) (fun t => t.reg 0 = 1) = true := by
  decide

/-- V16. -/
theorem test_div_floors : gives (step (boot [0xC3, 0x00, 0x01] [(0, 200), (1, 7)]))
    (fun t => t.reg 0 = 28 && t.pc = 3 && t.run) = true := by decide

/-- E3. -/
theorem test_div_by_zero : gives (step (bootAt 6 [0xC3, 0x00, 0x01] [(0, 7), (1, 0)]))
    (fun t => t.reg 0 = 7 && !t.run && t.cause = .divZero && t.errors = [⟨.divZero, 0xC3, 6⟩] && t.pc = 9) = true := by
  decide

/-- V27: unsigned operands. -/
theorem test_mod_is_unsigned : gives (step (boot [0xC4, 0x00, 0x01] [(0, 0x80), (1, 0xFF)]))
    (fun t => t.reg 0 = 0x80) = true := by decide

/-- V28. -/
theorem test_mod_by_zero : gives (step (boot [0xC4, 0x00, 0x01] [(0, 9)]))
    (fun t => t.reg 0 = 9 && !t.run && t.errors = [⟨.divZero, 0xC4, 0⟩] && t.pc = 3) = true := by decide

/-- V31. -/
theorem test_inc_wraps : gives (step (boot [0xA1, 0x03] [(3, 255)])) (fun t => t.reg 3 = 0 && t.pc = 2) = true := by decide

/-- V33. -/
theorem test_dec_wraps : gives (step (boot [0xA2, 0x03] [(3, 0)])) (fun t => t.reg 3 = 255) = true := by decide

/-- V120: the third fetched byte is ignored. -/
theorem test_not_ignores_third_byte : gives (step (boot [0xA0, 0x02, 0xFF] [(2, 1)]))
    (fun t => t.reg 2 = 0xFE && t.pc = 2) = true := by decide

/-- V38. -/
theorem test_and : gives (step (boot [0xC5, 0x00, 0x01] [(0, 0xCC), (1, 0xAA)])) (fun t => t.reg 0 = 0x88) = true := by
  decide

/-- V39. -/
theorem test_or : gives (step (boot [0xC6, 0x00, 0x01] [(0, 0xCC), (1, 0xAA)])) (fun t => t.reg 0 = 0xEE) = true := by
  decide

/-- V40. -/
theorem test_xor : gives (step (boot [0xC7, 0x00, 0x01] [(0, 0xCC), (1, 0xAA)])) (fun t => t.reg 0 = 0x66) = true := by
  decide

/-- V49: 128 is greater than 127. -/
theorem test_cmp_is_unsigned : gives (step (boot [0xC8, 0x00, 0x01] [(0, 0x80), (1, 0x7F)]))
    (fun t => t.fl = 2 && t.reg 0 = 0x80 && t.pc = 3) = true := by decide

/-- V54. -/
theorem test_cmp_accumulates : gives (step { boot [0xC8, 0x00, 0x01] [(0, 5), (1, 6)] with fl := 2 })
    (fun t => t.fl = 6) = true := by decide

/-! ## Load, store, stack -/

/-- V121: across the wrap of pc. -/
theorem test_ldi_across_the_wrap : gives (step (bootAt 0xFF [0x40, 0x03, 0x55] []))
    (fun t => t.reg 3 = 0x55 && t.pc = 2) = true := by decide

/-- V83. -/
theorem test_ldi_invalid_register : gives (step (boot [0x40, 0x08, 0x00] []))
    (fun t => !t.run && t.cause = .invalidRegister && t.errors = [⟨.invalidRegister, 0x40, 0⟩] && t.pc = 0) = true := by
  decide

/-- V86: it loads its own opcode byte. -/
theorem test_ld_own_opcode : gives (step (boot [0x41, 0x00, 0x01] [(1, 0)])) (fun t => t.reg 0 = 0x41) = true := by decide

/-- V85. -/
theorem test_ld_same_register :
    gives (step { boot [] [(1, 0x80)] with mem := Memory.writeBytes [(0x80, 42)] 0 [0x41, 0x01, 0x01] })
      (fun t => t.reg 1 = 42) = true := by decide

/-- V87: the first operand is the address. -/
theorem test_st_address_is_first_operand : gives (step (boot [0x42, 0x00, 0x01] [(0, 0x80), (1, 42)]))
    (fun t => t.readMem 0x80 = 42 && t.readMem 42 = 0 && t.reg 0 = 0x80) = true := by decide

/-- V89: the operand bytes were fetched before the store. -/
theorem test_st_over_its_own_operand : gives (step (boot [0x42, 0x00, 0x01] [(0, 0x01), (1, 0x07)]))
    (fun t => t.readMem 1 = 7 && t.pc = 3 && t.run) = true := by decide

/-- V93: the register is read after the decrement. -/
theorem test_push_sp : gives (step (boot [0x22, 0x07] []))
    (fun t => t.reg 7 = 0xF3 && t.readMem 0xF3 = 0xF3 && t.pc = 2) = true := by decide

/-- V95. -/
theorem test_push_wraps : gives (step (boot [0x22, 0x00] [(0, 9), (7, 0)]))
    (fun t => t.reg 7 = 0xFF && t.readMem 0xFF = 9) = true := by decide

/-- V94: the destination is written after the increment. -/
theorem test_pop_sp : gives (step { boot [] [] with mem := Memory.writeBytes [(0xF4, 0x77)] 0 [0x23, 0x07] })
    (fun t => t.reg 7 = 0x77) = true := by decide

/-- V96. -/
theorem test_pop_wraps :
    gives (step { boot [] [(7, 0xFF)] with mem := Memory.writeBytes [(0xFF, 0x5A)] 0 [0x23, 0x00] })
      (fun t => t.reg 0 = 0x5A && t.reg 7 = 0) = true := by decide

/-! ## Control transfer -/

/-- V74: the pushed address wraps. -/
theorem test_call_wraps : gives (step (bootAt 0xFF [0x30, 0x01] [(1, 0x10)]))
    (fun t => t.readMem 0xF3 = 1 && t.reg 7 = 0xF3 && t.pc = 0x10) = true := by decide

/-- V75: the target is read after the push. -/
theorem test_call_sp : gives (step (boot [0x30, 0x07] []))
    (fun t => t.readMem 0xF3 = 2 && t.reg 7 = 0xF3 && t.pc = 0xF3) = true := by decide

/-- V76. -/
theorem test_ret :
    gives (step { boot [] [(7, 0xF3)] with pc := 0x0E, mem := Memory.writeBytes [(0xF3, 0x08)] 0x0E [0x10] })
      (fun t => t.pc = 8 && t.reg 7 = 0xF4 && t.readMem 0xF3 = 8) = true := by decide

/-- V70. -/
theorem test_jmp : gives (step (boot [0x31, 0x02] [(2, 0x20)])) (fun t => t.pc = 0x20) = true := by decide

/-- V60 to V67: the values of fl from 0 to 7 with which the jump is taken. -/
def takenFor (op : Byte) : List Bool :=
  [0, 1, 2, 3, 4, 5, 6, 7].map fun f =>
    gives (step { bootAt 0x10 [op, 0x02] [(2, 0x40)] with fl := f }) fun t => t.pc = 0x40 && t.fl = f

/-- V60 to V67: the values of fl from 0 to 7 with which the step goes past the jump. -/
def passedFor (op : Byte) : List Bool :=
  [0, 1, 2, 3, 4, 5, 6, 7].map fun f =>
    gives (step { bootAt 0x10 [op, 0x02] [(2, 0x40)] with fl := f }) fun t => t.pc = 0x12 && t.fl = f

theorem test_jeq : takenFor 0x32 = [false, true, false, false, false, false, false, false] ∧
    passedFor 0x32 = [true, false, true, true, true, true, true, true] := by decide

theorem test_jne : takenFor 0x33 = [true, false, false, false, false, false, false, false] ∧
    passedFor 0x33 = [false, true, true, true, true, true, true, true] := by decide

theorem test_jgt : takenFor 0x34 = [false, false, true, false, false, false, false, false] ∧
    passedFor 0x34 = [true, true, false, true, true, true, true, true] := by decide

theorem test_jlt : takenFor 0x35 = [false, false, false, false, true, false, false, false] ∧
    passedFor 0x35 = [true, true, true, true, false, true, true, true] := by decide

/-- V68: the register operand is checked though the jump would not be taken. -/
theorem test_jeq_invalid_register : gives (step (boot [0x32, 0x08] []))
    (fun t => !t.run && t.errors = [⟨.invalidRegister, 0x32, 0⟩] && t.pc = 0) = true := by decide

/-! ## System, output, faults -/

/-- V101. -/
theorem test_hlt_wraps : gives (step (bootAt 0xFF [0x01] []))
    (fun t => !t.run && t.cause = .hlt && t.pc = 0 && t.ir = 1 && t.console = [] && t.errors = []) = true := by decide

/-- V119: unused operand bytes are not checked. -/
theorem test_hlt_ignores_operand_bytes : gives (step (boot [0x01, 0xFF, 0xFF] []))
    (fun t => t.haltedCleanly && !t.goneWrong) = true := by decide

/-- V103. -/
theorem test_nop : gives (step (bootAt 0x10 [0x00] [])) (fun t => t.pc = 0x11 && t.run) = true := by decide

/-- V104. -/
theorem test_iret_pops_nothing : gives (step (bootAt 0x10 [0x02] [(7, 0xF0)]))
    (fun t => t.pc = 0x11 && t.reg 7 = 0xF0 && t.ir = 2) = true := by decide

/-- V106. -/
theorem test_prn : gives (step (boot [0x20, 0x00] [(0, 255)])) (fun t => t.console = [.dec 255] && t.pc = 2) = true := by
  decide

/-- V107. -/
theorem test_pra : gives (step (boot [0x21, 0x03] [(3, 42)])) (fun t => t.console = [.chr 42]) = true := by decide

/-- V110, E7. -/
theorem test_illegal_opcode : gives (step (boot [0xFF] []))
    (fun t => !t.run && t.cause = .illegalOpcode && t.ir = 0xFF && t.pc = 0 &&
      t.errors = [⟨.illegalOpcode, 0xFF, 0⟩]) = true := by decide

/-- V116, V117: the priority of the faults. -/
theorem test_fault_priority :
    gives (step (boot [0xFF, 0x09, 0x09] [])) (fun t => t.cause = .illegalOpcode) = true ∧
    gives (step (boot [0xC3, 0x09, 0x01] [])) (fun t => t.cause = .invalidRegister && t.pc = 0) = true := by decide

/-- V102. -/
theorem test_halted_tick : step { boot [0xA1, 0x00] [] with run := false, cause := .hlt } =
    .next { boot [0xA1, 0x00] [] with run := false, cause := .hlt } := rfl

/-- E8. -/
theorem test_memory_wraps : Memory.read (Memory.write [] 256 0xAB) 0 = 0xAB ∧ Memory.read [(255, 7)] 511 = 7 := by decide

/-- spec/50_interfaces.md R174: the byte after the one at address 255 goes to address 0, over what was there. -/
theorem test_loader_wraps : Memory.read (Memory.writeBytes [(0, 0x11)] 255 [0x33, 0x22]) 0 = 0x22 ∧
    Memory.read (Memory.writeBytes [(0, 0x11)] 255 [0x33, 0x22]) 255 = 0x33 := by decide

/-- E12 and spec/10_state.md R24. -/
theorem test_reset_sp : State.reset.reg spIndex = 0xF4 ∧ State.reset.reg imIndex = 0 ∧ State.reset.reg isIndex = 0 := by
  decide

/-- The word is stored where the very next step runs it (P1's first instruction). -/
theorem test_with_fetch_word : gives (step (State.reset.withFetchWord 24 0x080040))
    (fun t => t.reg 0 = 8 && t.pc = 3) = true := by decide

/-! ## Witnesses: for each statement with hypotheses, a concrete state and operands that meet them together -/

/-- Registers 3, 0, 5, 0x80, 9, 1, 2 and SP 0, so that both the zero and the wrap are met. -/
def sample : State := boot [] [(0, 3), (1, 0), (2, 5), (3, 0x80), (4, 9), (5, 1), (6, 2), (7, 0)]

/-- A state that a division by zero halted. -/
def halted : State :=
  { bootAt 6 [0xC3, 0x00, 0x01] [(0, 7)] with
    ir := 0xC3, pc := 9, run := false, cause := .divZero, errors := [⟨.divZero, 0xC3, 6⟩] }

theorem witness_DecodeIffEncodingIsPrefix : decode 0x22 0xFF 0x09 = .ok (.push 0xFF) ∧
    (Instr.push 0xFF).encode <+: [0x22, 0xFF, 0x09] := by decide

theorem witness_UnlistedOpcodesAreExactlyTheIllegalOnes : (0xFF : Byte) ∉ legalOpcodes ∧ (0xC9 : Byte) ∉ legalOpcodes ∧
    (0xC8 : Byte) ∈ legalOpcodes := by decide

theorem witness_UnusedOperandBytesAreIgnored : operandCount 0x01 = 0 ∧ operandCount 0x22 = 1 := by decide

theorem witness_EncodedInstructionInMemoryRuns : (bootAt 0xFF [] []).run = true := by decide

theorem witness_StepRunsTheDecodedInstruction :
    let s := bootAt 0xFE [0xC1, 0x05, 0x04] []
    s.run = true ∧ decode (Memory.read s.mem s.pc.toNat) (Memory.read s.mem (s.pc.toNat + 1))
      (Memory.read s.mem (s.pc.toNat + 2)) = .ok (.sub 5 4) := by decide

theorem witness_UnlistedOpcodeHalts :
    let s := bootAt 0xFF [0x60] []
    s.run = true ∧ Memory.read s.mem s.pc.toNat ∉ legalOpcodes := by decide

theorem witness_InvalidRegisterOperandHalts : (Instr.jeq 8).wellFormed = false ∧ (Instr.div 0 255).wellFormed = false ∧
    (Instr.ldi 8 0).wellFormed = false := by decide

/-- One state for each of the three clauses. -/
theorem witness_FaultsHaveOnePriority :
    (boot [0xFF, 9, 9] []).run = true ∧ Memory.read (boot [0xFF, 9, 9] []).mem 0 ∉ legalOpcodes ∧
    (boot [0xC3, 9, 1] []).run = true ∧ decode 0xC3 9 1 = .ok (.div 9 1) ∧ (Instr.div 9 1).wellFormed = false ∧
    (boot [0xC4, 0, 1] []).run = true ∧ decode 0xC4 0 1 = .ok (.mod 0 1) ∧ (0 : Byte).toNat < 8 ∧ (1 : Byte).toNat < 8 ∧
    (boot [0xC4, 0, 1] []).regs[1] = 0 := by decide

/-- The operands 7 and 0 at both ends of the range, for the statements whose only hypotheses are on register operands. -/
theorem witness_register_operands : (7 : Byte).toNat < 8 ∧ (0 : Byte).toNat < 8 := by decide

theorem witness_AddSubMulResults : (7 : Byte).toNat < 8 ∧ (0 : Byte).toNat < 8 := witness_register_operands
theorem witness_BitwiseResults : (7 : Byte).toNat < 8 ∧ (0 : Byte).toNat < 8 := witness_register_operands
theorem witness_NotIncDecResults : (7 : Byte).toNat < 8 := by decide

theorem witness_DivModResults : (7 : Byte).toNat < 8 ∧ (0 : Byte).toNat < 8 ∧ sample.regs[0] ≠ 0 := by decide

theorem witness_DivModByZeroHalts : (0 : Byte).toNat < 8 ∧ (7 : Byte).toNat < 8 ∧ sample.regs[7] = 0 ∧
    (Instr.div 0 7 = .div 0 7 ∨ Instr.div 0 7 = .mod 0 7) ∧ (Instr.mod 0 7 = .div 0 7 ∨ Instr.mod 0 7 = .mod 0 7) := by decide

theorem witness_QuotientAndRemainderReconstruct : (3 : Byte).toNat < 8 ∧ (4 : Byte).toNat < 8 ∧ sample.regs[4] ≠ 0 := by
  decide

/-- Operands for the three outcomes: equal, greater, less. -/
theorem witness_CompareOrsOneOutcomeBit : (7 : Byte).toNat < 8 ∧ (1 : Byte).toNat < 8 ∧
    sample.regs[7] = sample.regs[1] ∧ sample.regs[3].toNat > sample.regs[2].toNat ∧
    sample.regs[2].toNat < sample.regs[3].toNat := by decide

/-- The highest register number with a zero value, and one with a non-zero value for the DIV and MOD clauses. -/
theorem witness_EqualOperandRegistersUseOldValueTwice : (7 : Byte).toNat < 8 ∧ sample.regs[7] = 0 ∧
    (4 : Byte).toNat < 8 ∧ sample.regs[4] ≠ 0 := by decide

theorem witness_LoadResults : (7 : Byte).toNat < 8 ∧ (0 : Byte).toNat < 8 := witness_register_operands
theorem witness_StoreResult : (7 : Byte).toNat < 8 ∧ (0 : Byte).toNat < 8 ∧ 255 % 256 ≠ sample.regs[7].toNat := by decide

theorem witness_PushResult : (7 : Byte).toNat < 8 ∧ (0 : Byte).toNat < 8 ∧ 0 % 256 ≠ (sample.regs[7] - 1).toNat := by decide
theorem witness_PopResult : (7 : Byte).toNat < 8 ∧ (0 : Byte).toNat < 8 := witness_register_operands
theorem witness_PushThenPopMovesTheValue : (7 : Byte).toNat < 8 ∧ (0 : Byte).toNat < 8 ∧ (0 : Byte) ≠ 7 ∧
    (3 : Nat) ≠ (0 : Byte).toNat ∧ (3 : Nat) ≠ 7 := by decide

theorem witness_CallResult : (7 : Byte).toNat < 8 ∧ (0 : Byte).toNat < 8 ∧ 0 % 256 ≠ (sample.regs[7] - 1).toNat := by decide

/-- The callee's state at its RET is here the very state that CALL left. -/
theorem witness_CallThenReturnResumesAfterCall :
    gives (exec (.call 7) sample) (fun t => t.regs[7] = 0xFF && Memory.read t.mem t.regs[7].toNat = 2) = true := by decide

/-- The five values at which the clauses meet: 1, 0, 2, 4, and 3, at which no conditional jump is taken. -/
theorem witness_JumpAndConditionalJumpResults : (7 : Byte).toNat < 8 ∧
    ({ sample with fl := 1 } : State).fl = 1 ∧ ({ sample with fl := 0 } : State).fl = 0 ∧
    ({ sample with fl := 2 } : State).fl = 2 ∧ ({ sample with fl := 4 } : State).fl = 4 ∧
    ({ sample with fl := 3 } : State).fl ∉ [1, 0, 2, 4] := by decide

/-- A NOP, then JGT r7, started with the bits E and G set: one step leads to the jump. -/
def exhausted : State := { bootAt 0xFE [0x00, 0x34, 0x07] [] with fl := 3 }

theorem witness_FlagExhaustionEndsConditionalJumps :
    (1 : Byte) ∈ [1, 2, 4] ∧ (2 : Byte) ∈ [1, 2, 4] ∧ (1 : Byte) ≠ 2 ∧ exhausted.fl &&& 1 = 1 ∧ exhausted.fl &&& 2 = 2 ∧
    Host.Core.run Sys2Proof.core 1 exhausted = .next { exhausted with pc := 0xFF } ∧ exhausted.run = true ∧
    (7 : Byte).toNat < 8 ∧ Instr.jgt 7 ∈ [Instr.jeq 7, .jne 7, .jgt 7, .jlt 7] ∧
    decode (Memory.read exhausted.mem 0xFF) (Memory.read exhausted.mem 0x100) (Memory.read exhausted.mem 0x101) =
      .ok (.jgt 7) :=
  ⟨by decide, by decide, by decide, by decide, by decide, rfl, by decide, by decide, by decide, by decide⟩

theorem witness_PrintResults : (7 : Byte).toNat < 8 := by decide

theorem witness_RegisterFrame : mayWriteReg (.pop 3) 0 = false ∧ mayWriteReg (.cmp 0 1) 0 = false ∧
    mayWriteReg (.pop 3) 3 = true ∧ mayWriteReg (.pop 3) 7 = true := by decide

theorem witness_OnlyCompareWritesFlagsAndOnlySetsBits : (∀ a b : Byte, Instr.add 0 1 ≠ .cmp a b) ∧
    ({ sample with fl := 7 } : State).fl.toNat < 8 := ⟨nofun, by decide⟩

theorem witness_MemoryFrame : storeTarget (.add 0 1) sample = none ∧ storeTarget (.st 3 0) sample = some 0x80 ∧
    storeTarget (.push 0) sample = some 0xFF ∧ storeTarget (.call 7) sample = some 0xFF ∧
    storeTarget (.st 8 0) sample = none ∧ 0x81 % 256 ≠ 0x80 := by decide

/-- Another byte with the operand count of the one in `ir`, and a running state whose fetched bytes decode. -/
theorem witness_InstructionRegisterIsOnlyFetched :
    operandCount 0xC3 = operandCount ({ sample with ir := 0x41 } : State).ir ∧ (bootAt 0xFF [0xC1, 5, 4] []).run = true ∧
    decode (Memory.read (bootAt 0xFF [0xC1, 5, 4] []).mem 0xFF) (Memory.read (bootAt 0xFF [0xC1, 5, 4] []).mem 0x100)
      (Memory.read (bootAt 0xFF [0xC1, 5, 4] []).mem 0x101) = .ok (.sub 5 4) := by decide

theorem witness_HaltStateFrame : Instr.div 0 4 ≠ .hlt ∧ (Instr.div 0 4).wellFormed = true ∧ sample.regs[4] ≠ 0 ∧
    ∀ (a b : Byte) (hb : b.toNat < 8), (Instr.div 0 4 = .div a b ∨ Instr.div 0 4 = .mod a b) → sample.regs[b.toNat] ≠ 0 := by
  have h4 : sample.regs[4] ≠ 0 := by decide
  refine ⟨by decide, by decide, h4, ?_⟩
  rintro a b hb (h | h) <;> cases h
  exact h4

/-- One state for a plain instruction at the wrap of pc, one for RET, one for a register operand of the jumps. -/
theorem witness_NextPcOfEveryInstruction :
    (bootAt 0xFF [0x40, 7, 9] []).run = true ∧ (Instr.ldi 7 9).wellFormed = true ∧
    decode (Memory.read (bootAt 0xFF [0x40, 7, 9] []).mem 0xFF) (Memory.read (bootAt 0xFF [0x40, 7, 9] []).mem 0x100)
      (Memory.read (bootAt 0xFF [0x40, 7, 9] []).mem 0x101) = .ok (.ldi 7 9) ∧
    isControlTransfer (.ldi 7 9) = false ∧ Instr.ret.wellFormed = true ∧ decode 0x10 0 0 = .ok .ret ∧
    (Instr.call 7).wellFormed = true ∧ decode 0x30 7 0 = .ok (.call 7) ∧ (7 : Byte).toNat < 8 := by decide

theorem witness_HaltedTickChangesNothing : halted.run = false ∧ sample.run = true := by decide

theorem witness_EveryStepFetchesTheOpcodeFirst : (boot [0xFF] []).run = true ∧
    Memory.read (boot [0xFF] []).mem (boot [0xFF] []).pc.toNat ∉ legalOpcodes := by decide

theorem witness_WaysToHalt : (boot [0x01] []).run = true ∧ decode 0x01 0 0 = .ok .hlt ∧ decode 0xC3 0 1 = .ok (.div 0 1) ∧
    (boot [0xC3, 0, 1] []).run = true ∧ (boot [0xC3, 0, 1] []).regs[1] = 0 := by decide

theorem witness_StepKeepsInvariant : (bootAt 0xFF [0xC3, 0, 1] [(0, 7)]).inv = true ∧ halted.inv = true := by decide

theorem witness_EveryInputSequenceKeepsInvariant : halted.inv = true ∧ State.reset.inv = true := by decide

theorem witness_FaultHaltIsFinal : halted.inv = true ∧ halted.goneWrong = true := by decide

theorem witness_OnlyResetLeavesTheHaltedState : halted.run = false ∧
    gives (respond (.reset [0xFF]) halted) (fun t => t.run) = true := by decide

theorem witness_FaultsArePrecise :
    (boot [0xC3, 0, 1] []).inv = true ∧ (boot [0xC3, 0, 1] []).run = true ∧
    gives (step (boot [0xC3, 0, 1] [])) State.goneWrong = true ∧
    (boot [0xC3, 8, 1] []).inv = true ∧ (boot [0xC3, 8, 1] []).run = true ∧
    gives (step (boot [0xC3, 8, 1] [])) State.goneWrong = true := by decide

theorem witness_LoaderWritesProgramFromAddressZero :
    0 < 256 ∧ 255 < 256 ∧ 0 < (List.replicate 257 (0x11 : Byte)).length := by
  rw [List.length_replicate]
  decide

theorem witness_CanonicalMemoryIsDeterminedByItsBytes :
    Memory.wf [(3, 1)] = true ∧ Memory.wf (Memory.write (Memory.write [(4, 9)] 259 1) 260 0) = true ∧
    ∀ x : Nat, Memory.read [(3, 1)] x = Memory.read (Memory.write (Memory.write [(4, 9)] 259 1) 260 0) x :=
  ⟨by decide, by decide, fun _ => rfl⟩

theorem witness_MaskAndStatusRegistersAreInert : (5 < 8 ∧ ∀ o ∈ (Instr.add 6 7).regOperands, o.toNat ≠ 5) ∧
    (6 < 8 ∧ ∀ o ∈ (Instr.push 5).regOperands, o.toNat ≠ 6) := by decide

theorem witness_FlagsAreReadOnlyByConditionalJumps :
    (∀ a : Byte, Instr.cmp 0 1 ∉ [Instr.jeq a, .jne a, .jgt a, .jlt a]) ∧
    (7 : Byte).toNat < 8 ∧ (Instr.jlt 7, (4 : Byte)) ∈ [(Instr.jeq 7, (1 : Byte)), (.jne 7, 0), (.jgt 7, 2), (.jlt 7, 4)] :=
  ⟨fun a h => by simp at h, by decide, by decide⟩

end Sys2Proof.Machine.Tests
end

/-! # The flags register (spec/10_state.md R18, R19) -/

namespace Sys2Proof.Machine

/-! ## What writes `fl` (R18) -/

section FlagsWritten

variable {s t : State} {i : Instr}

/-- CMP sets one of bits 0 to 2. -/
theorem compareFlag_lt_eight (x y : Byte) : (compareFlag x y).toNat < 8 := by
  obtain ⟨-, h⟩ | ⟨-, h⟩ | ⟨-, h⟩ := compareFlag_cases x y <;> rw [h] <;> decide

/-- Of the ways out of an instruction, CMP's own is the only one that touches `fl`. -/
theorem ExecShape.fl_cases (h : ExecShape s i t) :
    t.fl = s.fl ∨ ∃ a b x y : Byte, i = .cmp a b ∧ t.fl = s.fl ||| compareFlag x y := by
  cases h with
  | flags x y => exact .inr ⟨_, _, x, y, rfl, rfl⟩
  | _ => exact .inl rfl

/-- Every instruction but CMP leaves `fl`. -/
theorem exec_fl_of_ne_cmp (h : exec i s = .next t) (hi : ∀ a b : Byte, i ≠ .cmp a b) : t.fl = s.fl := by
  obtain hfl | ⟨a, b, -, -, hcmp, -⟩ := (exec_shape h).fl_cases
  · exact hfl
  · exact absurd hcmp (hi a b)

/-- An instruction changes `fl` only by setting some of bits 0 to 2. -/
theorem exec_fl_eq_or (h : exec i s = .next t) : ∃ m : Byte, m.toNat < 8 ∧ t.fl = s.fl ||| m := by
  obtain hfl | ⟨-, -, x, y, -, hfl⟩ := (exec_shape h).fl_cases
  · exact ⟨0, by decide, hfl.trans BitVec.or_zero.symm⟩
  · exact ⟨compareFlag x y, compareFlag_lt_eight x y, hfl⟩

/-- So does a step, halted and faulting ones included. -/
theorem step_fl_eq_or (h : step s = .next t) : ∃ m : Byte, m.toNat < 8 ∧ t.fl = s.fl ||| m := by
  obtain ⟨-, rfl⟩ | ⟨-, -, rfl⟩ | ⟨-, i, -, -, hexec⟩ := step_cases h
  · exact ⟨0, by decide, BitVec.or_zero.symm⟩
  · exact ⟨0, by decide, BitVec.or_zero.symm⟩
  · exact exec_fl_eq_or (s := s.fetchOpcode) hexec

/-- A step clears no bit of `fl`. -/
theorem step_keeps_set_flags (h : step s = .next t) : s.fl &&& t.fl = s.fl := by
  obtain ⟨m, -, hfl⟩ := step_fl_eq_or h
  rw [hfl]
  ext k
  rw [BitVec.getElem_and, BitVec.getElem_or]
  exact inf_sup_self

/-- A step keeps bits 7 to 3 of `fl` at 0 (R17). -/
theorem step_keeps_flags_lt_eight (h : step s = .next t) (hs : s.fl.toNat < 8) : t.fl.toNat < 8 := by
  obtain ⟨m, hm, hfl⟩ := step_fl_eq_or h
  rw [hfl, BitVec.toNat_or]
  exact Nat.or_lt_two_pow (n := 3) hs hm

end FlagsWritten

/-- Settles O32, from the one shape of an instruction's result in which `fl` is written. -/
theorem onlyCompareWritesFlagsAndOnlySetsBits : Obligations.OnlyCompareWritesFlagsAndOnlySetsBits := by
  refine ⟨fun i s => ?_, fun s => ?_, fun image s => ⟨State.boot image, rfl, rfl⟩⟩
  · obtain ⟨t, h⟩ := exec_next i s
    exact ⟨t, h, exec_fl_of_ne_cmp h⟩
  · obtain ⟨t, h⟩ := step_next s
    exact ⟨t, h, step_keeps_set_flags h, step_keeps_flags_lt_eight h⟩

/-! ## What reads `fl` (R19) -/

/-- Both outcomes are next states, and these differ at most in `fl`. -/
def AgreeButFlags (o o' : StepOutcome) : Prop :=
  ∃ (t : State) (f : Byte), o = .next t ∧ o' = .next { t with fl := f }

section FlagsRead

variable {s : State} {f a b : Byte}

/-- The check of one register operand does not read `fl`. -/
theorem withReg_agreeButFlags {k k' : RegIndex → StepOutcome} (hk : ∀ r, AgreeButFlags (k r) (k' r)) :
    AgreeButFlags (withReg a s k) (withReg a { s with fl := f } k') := by
  by_cases ha : a.toNat < 8
  · rw [withReg_of_lt ha, withReg_of_lt ha]
    exact hk _
  · rw [withReg_of_not_lt ha, withReg_of_not_lt ha]
    exact ⟨_, f, rfl, rfl⟩

/-- Nor does the check of two. -/
theorem withRegs_agreeButFlags {k k' : RegIndex → RegIndex → StepOutcome}
    (hk : ∀ r q, AgreeButFlags (k r q) (k' r q)) :
    AgreeButFlags (withRegs a b s k) (withRegs a b { s with fl := f } k') :=
  withReg_agreeButFlags fun r => withReg_agreeButFlags fun q => hk r q

theorem aluBinary_agreeButFlags (g : Byte → Byte → Byte) :
    AgreeButFlags (aluBinary g a b s) (aluBinary g a b { s with fl := f }) :=
  withRegs_agreeButFlags fun _ _ => ⟨_, f, rfl, rfl⟩

theorem aluUnary_agreeButFlags (g : Byte → Byte) :
    AgreeButFlags (aluUnary g a s) (aluUnary g a { s with fl := f }) :=
  withReg_agreeButFlags fun _ => ⟨_, f, rfl, rfl⟩

/-- DIV and MOD test their divisor, which is the same register in both states. -/
theorem aluDivide_agreeButFlags (g : Byte → Byte → Byte) :
    AgreeButFlags (aluDivide g a b s) (aluDivide g a b { s with fl := f }) := by
  refine withRegs_agreeButFlags fun r q => ?_
  change AgreeButFlags (if s.reg q = 0 then _ else _) (if s.reg q = 0 then _ else _)
  split
  · exact ⟨_, f, rfl, rfl⟩
  · exact ⟨_, f, rfl, rfl⟩

/-- Only the conditional jumps carry `fl` into anything but `fl`. CMP carries it into `fl` itself. -/
theorem exec_agreeButFlags {i : Instr} (hi : ∀ a : Byte, i ∉ [Instr.jeq a, .jne a, .jgt a, .jlt a]) :
    AgreeButFlags (exec i s) (exec i { s with fl := f }) := by
  cases i with
  | jeq a | jne a | jgt a | jlt a => exact absurd (by simp) (hi a)
  | nop | hlt | iret | ret => exact ⟨_, f, rfl, rfl⟩
  | prn a | pra a | push a | pop a | call a | jmp a | ldi a _ =>
    exact withReg_agreeButFlags fun _ => ⟨_, f, rfl, rfl⟩
  | ld a b | st a b => exact withRegs_agreeButFlags fun _ _ => ⟨_, f, rfl, rfl⟩
  | not a | inc a | dec a => exact aluUnary_agreeButFlags _
  | add a b | sub a b | mul a b | and a b | or a b | xor a b => exact aluBinary_agreeButFlags _
  | div a b | mod a b => exact aluDivide_agreeButFlags _
  | cmp a b =>
    exact withRegs_agreeButFlags fun r q => ⟨_, f ||| compareFlag (s.reg r) (s.reg q), rfl, rfl⟩

/-- Each conditional jump compares the whole of `fl` with its constant (spec/44_control_transfer.md R144 to R148). -/
theorem exec_conditionalJump (ha : a.toNat < 8) {i : Instr} {c : Byte}
    (hi : (i, c) ∈ [(Instr.jeq a, (1 : Byte)), (.jne a, 0), (.jgt a, 2), (.jlt a, 4)]) :
    exec i s = .next { s with pc := if s.fl = c then s.regs[a.toNat] else nextAddress s } := by
  simp only [List.mem_cons, Prod.mk.injEq, List.not_mem_nil, or_false] at hi
  obtain ⟨rfl, rfl⟩ | ⟨rfl, rfl⟩ | ⟨rfl, rfl⟩ | ⟨rfl, rfl⟩ := hi
  · exact jumpIfFlagsAre_of_lt flagEqual ha s
  · exact jumpIfFlagsAre_of_lt 0x00 ha s
  · exact jumpIfFlagsAre_of_lt flagGreater ha s
  · exact jumpIfFlagsAre_of_lt flagLess ha s

end FlagsRead

/-- Settles O55: the operand forms do not read `fl`, and the four conditional jumps have one shape. -/
theorem flagsAreReadOnlyByConditionalJumps : Obligations.FlagsAreReadOnlyByConditionalJumps :=
  ⟨fun _ _ _ hi => exec_agreeButFlags hi, fun _ _ ha _ _ hi => exec_conditionalJump ha hi⟩

end Sys2Proof.Machine

/-! # Operand bytes the decoder does not use (spec/30_encoding.md R59) -/

namespace Sys2Proof.Machine

/-- The decoder reads its first operand byte only at a positive operand count, and its second only at a count above 1.
The arms of the opcode map are taken by format: no operand byte used, one, two. -/
theorem decode_eq_of_used_operands_eq {op a b a' b' : Byte} (ha : 0 < operandCount op → a = a')
    (hb : 1 < operandCount op → b = b') : decode op a b = decode op a' b' := by
  unfold decode
  split
  -- NOP, HLT, IRET and RET; the last arm is the refusal of an unlisted byte.
  case h_1 | h_2 | h_3 | h_4 | h_30 => rfl
  -- PRN to JLT, and the unary ALU instructions.
  case h_5 | h_6 | h_7 | h_8 | h_9 | h_10 | h_11 | h_12 | h_13 | h_14 | h_18 | h_19 | h_20 => rw [ha (by decide)]
  -- LDI, LD, ST, and the binary ALU instructions.
  all_goals rw [ha (by decide), hb (by decide)]

/-- Settles O4: at count 0 neither operand byte is used, at count 1 the second is not. -/
theorem unusedOperandBytesAreIgnored : Obligations.UnusedOperandBytesAreIgnored := by
  refine fun op a b a' b' => ⟨fun h0 => ?_, fun h1 => ?_⟩
  · exact decode_eq_of_used_operands_eq (fun h => by omega) (fun h => by omega)
  · exact decode_eq_of_used_operands_eq (fun _ => rfl) (fun h => by omega)

end Sys2Proof.Machine

/-! # The tick and the fetch into `ir` (spec/40_step_cycle.md R70, R71) -/

namespace Sys2Proof.Machine

section OpcodeFetched

variable {s t : State} {i : Instr}

/-- A halted machine stays as it is (R70). -/
theorem step_of_halted (hs : s.run = false) : step s = .next s := by
  rw [step, hs]
  rfl

/-- No way out of an instruction writes `ir`. -/
theorem ExecShape.ir_eq (h : ExecShape s i t) : t.ir = s.ir := by
  cases h <;> rfl

/-- After the step of a running machine `ir` holds the byte that memory had at `pc` before it (R71). -/
theorem step_ir_of_running (hs : s.run = true) (h : step s = .next t) : t.ir = Memory.read s.mem s.pc.toNat := by
  obtain ⟨hhalted, -⟩ | ⟨-, -, rfl⟩ | ⟨-, i, -, -, hexec⟩ := step_cases h
  · cases hs.symm.trans hhalted
  · rw [raise_ir, State.fetchOpcode_ir]
  · rw [(exec_shape hexec).ir_eq, State.fetchOpcode_ir]

/-- Every instruction has a listed opcode byte. -/
theorem opcode_mem_legalOpcodes (i : Instr) : i.opcode ∈ legalOpcodes := by
  cases i <;> exact List.mem_of_elem_eq_true rfl

/-- At an unlisted byte the decoder finds no instruction, so the step is the IllegalOpcode fault alone. -/
theorem step_eq_raise_of_illegal (hs : s.run = true) (hop : Memory.read s.mem s.pc.toNat ∉ legalOpcodes)
    (h : step s = .next t) : t = raise .illegalOpcode s.fetchOpcode := by
  obtain ⟨hhalted, -⟩ | ⟨-, -, ht⟩ | ⟨-, i, -, hi, -⟩ := step_cases h
  · cases hs.symm.trans hhalted
  · exact ht
  · rw [State.fetchOpcode_ir] at hi
    exact absurd (hi ▸ opcode_mem_legalOpcodes i) hop

/-- The IllegalOpcode fault writes no memory. -/
theorem step_mem_of_illegal (hs : s.run = true) (hop : Memory.read s.mem s.pc.toNat ∉ legalOpcodes)
    (h : step s = .next t) : t.mem = s.mem := by
  rw [step_eq_raise_of_illegal hs hop h, raise_mem, State.fetchOpcode_mem]

end OpcodeFetched

/-- Settles O39: the fetch writes `ir` before anything is decoded, and nothing after it writes `ir` again. -/
theorem everyStepFetchesTheOpcodeFirst : Obligations.EveryStepFetchesTheOpcodeFirst := by
  intro s hs
  obtain ⟨t, h⟩ := step_next s
  have hir := step_ir_of_running hs h
  exact ⟨t, h, hir, fun hop => ⟨hir, step_mem_of_illegal hs hop h⟩⟩

/-- Settles O38, from the two branches of the step. -/
theorem haltedTickChangesNothing : Obligations.HaltedTickChangesNothing := by
  refine ⟨fun _ hs => step_of_halted hs, fun s hs => ?_⟩
  obtain ⟨t, h⟩ := step_next s
  exact ⟨t, h, step_ir_of_running hs h⟩

end Sys2Proof.Machine

/-! # The ways to halt (spec/50_interfaces.md R181) -/

namespace Sys2Proof.Machine

/-- Executing the instruction halts the machine: HLT, a register operand that names no register, or a division by zero
(spec/50_interfaces.md R181). -/
def HaltsOn (i : Instr) (s : State) : Prop :=
  i = .hlt ∨ i.wellFormed = false ∨
    ∃ (a b : Byte) (_ : a.toNat < 8) (hb : b.toNat < 8), (i = .div a b ∨ i = .mod a b) ∧ s.regs[b.toNat] = 0

section WaysToHalt

variable {s t : State} {i : Instr} {a b : Byte}

/-! ## The instructions that halt -/

/-- An operand that names no register makes the instruction the InvalidRegister fault alone
(spec/60_exceptions.md R206). -/
theorem exec_of_not_wellFormed (hi : i.wellFormed = false) (s : State) :
    exec i s = .next (raise .invalidRegister s) := by
  have hbad : ¬ i.wellFormed = true := Bool.not_eq_true _ ▸ hi
  cases i with
  | nop | hlt | iret | ret => exact absurd rfl hbad
  | prn a | pra a | push a | pop a | call a | jmp a | jeq a | jne a | jgt a | jlt a | ldi a _ | not a | inc a
  | dec a => exact withReg_of_not_lt (mt (wellFormed_of_one rfl).2 hbad) s _
  | ld a b | st a b | add a b | sub a b | mul a b | div a b | mod a b | and a b | or a b | xor a b | cmp a b =>
    exact withRegs_of_not_lt (mt (wellFormed_of_two rfl).2 hbad) s _

/-- DIV and MOD by zero take the DivZero fault and advance (spec/60_exceptions.md R207). -/
theorem exec_divMod_of_zero (hi : i = .div a b ∨ i = .mod a b) (ha : a.toNat < 8) (hb : b.toNat < 8)
    (hz : s.regs[b.toNat] = 0) : exec i s = .next { raise .divZero s with pc := nextAddress s } := by
  obtain rfl | rfl := hi
  · exact aluDivide_of_eq aluDiv ha hb s hz
  · exact aluDivide_of_eq aluMod ha hb s hz

/-- DIV and MOD by any other divisor write a register and advance. -/
theorem exec_divMod_of_ne (hi : i = .div a b ∨ i = .mod a b) (ha : a.toNat < 8) (hb : b.toNat < 8)
    (hz : s.regs[b.toNat] ≠ 0) :
    ∃ v, exec i s = .next { s with regs := s.regs.set a.toNat v, pc := nextAddress s } := by
  obtain rfl | rfl := hi
  · exact ⟨_, aluDivide_of_ne aluDiv ha hb s hz⟩
  · exact ⟨_, aluDivide_of_ne aluMod ha hb s hz⟩

/-- Opcode bytes 0xC3 and 0xC4 belong to DIV and MOD only. -/
theorem div_or_mod_of_opcode (h : i.opcode = 0xC3 ∨ i.opcode = 0xC4) : ∃ a b, i = .div a b ∨ i = .mod a b := by
  cases i with
  | div a b => exact ⟨a, b, .inl rfl⟩
  | mod a b => exact ⟨a, b, .inr rfl⟩
  | _ => simp at h

theorem wellFormed_divMod (hi : i = .div a b ∨ i = .mod a b) :
    i.wellFormed = true ↔ a.toNat < 8 ∧ b.toNat < 8 := by
  obtain rfl | rfl := hi
  · exact wellFormed_of_two rfl
  · exact wellFormed_of_two rfl

/-! ## `run` after an instruction -/

theorem exec_run_of_haltsOn (hi : HaltsOn i s) (h : exec i s = .next t) : t.run = false := by
  obtain rfl | hbad | ⟨a, b, ha, hb, hdiv, hz⟩ := hi
  · cases h; rfl
  · rw [exec_of_not_wellFormed hbad] at h
    cases h; rfl
  · rw [exec_divMod_of_zero hdiv ha hb hz] at h
    cases h; rfl

/-- Three shapes of a result have `run` cleared, and each is one of the ways of `HaltsOn`. The shape of a division by
zero does not record the divisor: it is zero, since another would have written a register. -/
theorem exec_run_of_not_haltsOn (hi : ¬ HaltsOn i s) (h : exec i s = .next t) : t.run = s.run := by
  cases exec_shape h with
  | invalid hbad => exact absurd (.inr (.inl hbad)) hi
  | halted => exact absurd (.inl rfl) hi
  | divZero hop =>
    obtain ⟨a, b, hdiv⟩ := div_or_mod_of_opcode hop
    have hwf : i.wellFormed = true := Bool.of_not_eq_false fun hbad => hi (.inr (.inl hbad))
    obtain ⟨ha, hb⟩ := (wellFormed_divMod hdiv).1 hwf
    have hz : s.regs[b.toNat] ≠ 0 := fun hz => hi (.inr (.inr ⟨a, b, ha, hb, hdiv, hz⟩))
    obtain ⟨v, hv⟩ := exec_divMod_of_ne hdiv ha hb hz
    rw [Host.Outcome.next.inj (h.symm.trans hv)]
  | _ => rfl

theorem exec_run_eq_false_iff (hs : s.run = true) (h : exec i s = .next t) : t.run = false ↔ HaltsOn i s := by
  refine ⟨fun ht => by_contra fun hi => ?_, fun hi => exec_run_of_haltsOn hi h⟩
  cases ht.symm.trans ((exec_run_of_not_haltsOn hi h).trans hs)

/-! ## From the instruction to the step -/

/-- The decoder finds an instruction at each of the 29 opcode bytes, whatever the operand bytes
(spec/30_encoding.md R53, R58). -/
theorem decode_of_mem_legalOpcodes {op : Byte} (h : op ∈ legalOpcodes) (opA opB : Byte) :
    ∃ i, decode op opA opB = .ok i := by
  unfold decode
  split
  -- The last arm, reached by no listed byte.
  case h_30 => simp_all [legalOpcodes]
  all_goals exact ⟨_, rfl⟩

/-- A running machine executes what it decodes, with the opcode byte in `ir`. -/
theorem step_eq_exec_of_decode (hs : s.run = true) (h : s.fetchOpcode.decodeFetched = .ok i) :
    step s = exec i s.fetchOpcode := by
  simp only [step, hs, if_true, h]

end WaysToHalt

/-- Settles O41: an unlisted byte is the IllegalOpcode fault, and a listed one runs the one decoded instruction, which
halts as `HaltsOn` says. -/
theorem waysToHalt : Obligations.WaysToHalt := by
  intro s hs
  obtain ⟨t, h⟩ := step_next s
  refine ⟨t, h, ?_⟩
  by_cases hop : Memory.read s.mem s.pc.toNat ∈ legalOpcodes
  · obtain ⟨i, hd⟩ := decode_of_mem_legalOpcodes hop (Memory.read s.mem (s.pc.toNat + 1))
      (Memory.read s.mem (s.pc.toNat + 2))
    have hexec : exec i s.fetchOpcode = .next t := (step_eq_exec_of_decode hs hd).symm.trans h
    have hrun : t.run = false ↔ HaltsOn i s := exec_run_eq_false_iff (s := s.fetchOpcode) hs hexec
    refine hrun.trans ⟨fun hi => .inr ⟨i, hd, hi⟩, ?_⟩
    rintro (hillegal | ⟨j, hj, hhalts⟩)
    · exact absurd hop hillegal
    · cases hd.symm.trans hj
      exact hhalts
  · refine iff_of_true ?_ (.inl hop)
    rw [step_eq_raise_of_illegal hs hop h, raise_run]

end Sys2Proof.Machine

/-! # The loader (spec/50_interfaces.md R174) -/

namespace Sys2Proof.Machine

/-- Writing one list of bytes after another is writing their concatenation. -/
theorem Memory.writeBytes_append (m : Memory) (addr : Nat) (bs cs : List Byte) :
    Memory.writeBytes m addr (bs ++ cs) = Memory.writeBytes (Memory.writeBytes m addr bs) (addr + bs.length) cs := by
  induction bs generalizing m addr with
  | nil => rfl
  | cons v vs ih =>
    rw [List.cons_append, Memory.writeBytes, Memory.writeBytes, ih, List.length_cons, Nat.add_right_comm, Nat.add_assoc]

/-- The loader's last write puts the last byte at the address that is its index. -/
theorem loadProgram_concat (bs : List Byte) (v : Byte) (m : Memory) :
    loadProgram (bs ++ [v]) m = Memory.write (loadProgram bs m) bs.length v := by
  rw [loadProgram, Memory.writeBytes_append, Nat.zero_add]
  rfl

/-- Settles O50, by induction on the image from its end: the last byte is at its own index mod 256, and for every other
cell the greatest index that reaches it is that of the shorter image. -/
theorem loaderWritesProgramFromAddressZero : Obligations.LoaderWritesProgramFromAddressZero := by
  intro image m x hx
  induction image using List.reverseRecOn with
  | nil => rfl
  | append_singleton bs v ih =>
    rw [loadProgram_concat, Memory.read_write, ih, List.length_append, List.length_singleton, Nat.add_sub_cancel,
      Nat.mod_eq_of_lt hx]
    by_cases hlast : bs.length % 256 = x
    · have hidx : x + 256 * ((bs.length - x) / 256) = bs.length := by omega
      rw [if_pos hlast, if_pos (by omega), hidx, List.getD_append_right _ _ _ _ le_rfl, Nat.sub_self]
      rfl
    · rw [if_neg hlast]
      by_cases hlt : x < bs.length
      · have hidx : (bs.length - x) / 256 = (bs.length - 1 - x) / 256 := by omega
        rw [if_pos hlt, if_pos (by omega), hidx, List.getD_append _ _ _ _ (by omega)]
      · rw [if_neg hlt, if_neg (by omega)]

end Sys2Proof.Machine

/-! # After a fault (spec/60_exceptions.md R201, R202) -/

namespace Sys2Proof.Machine

/-- A halted machine stays as it is through any number of ticks (spec/40_step_cycle.md R70). -/
theorem run_of_halted {s : State} (hs : s.run = false) (n : Nat) :
    Host.Core.run Sys2Proof.core n s = .next s := by
  induction n with
  | zero => rfl
  | succ n ih => exact (run_succ n (step_of_halted hs)).trans ih

/-- The halt record pairs the cause of a fault with a cleared run flag (R201). -/
theorem State.run_eq_false_of_goneWrong {s : State} (hrec : s.haltRecord = true) (hwrong : s.goneWrong = true) :
    s.run = false := by
  simp only [State.goneWrong] at hwrong
  cases hc : s.cause <;>
    simp only [State.haltRecord, hc, Bool.and_eq_true, Bool.not_eq_true'] at hrec hwrong
  case none | hlt => cases hwrong
  case illegalOpcode | invalidRegister => exact hrec.1
  case divZero => exact hrec.1.1

/-- Settles O46: by the halt record a machine that has gone wrong is halted, and a halted machine does nothing. -/
theorem faultHaltIsFinal : Obligations.FaultHaltIsFinal := by
  intro s hinv hwrong
  obtain ⟨-, hrec⟩ := Bool.and_eq_true_iff.1 hinv
  exact run_of_halted (State.run_eq_false_of_goneWrong hrec hwrong)

end Sys2Proof.Machine

/-! # R5 and R6 (spec/60_exceptions.md R211) -/

namespace Sys2Proof.Machine

/-! ## The operations and the write of a register they do not touch -/

section SetReg

variable (s : State) {r q : RegIndex} (v w : Byte)

/-- Writes to two registers can change places. -/
theorem State.setReg_comm (h : r ≠ q) : (s.setReg r v).setReg q w = (s.setReg q w).setReg r v :=
  congrArg (fun regs => { s with regs := regs }) (Vector.set_comm _ _ (Fin.val_ne_of_ne h))

/-- Writing back the value a register holds changes nothing. -/
theorem State.setReg_reg_self (r : RegIndex) : s.setReg r (s.reg r) = s :=
  congrArg (fun regs => { s with regs := regs }) (Vector.set_getElem_self _)

theorem State.stackAddress_setReg (hr : r ≠ spIndex) : (s.setReg r v).stackAddress = s.stackAddress :=
  congrArg BitVec.toNat (State.reg_setReg_ne s hr v)

theorem State.readTop_setReg (hr : r ≠ spIndex) : (s.setReg r v).readTop = s.readTop :=
  congrArg (Memory.read s.mem) (State.stackAddress_setReg s v hr)

theorem State.incrementSp_setReg (hr : r ≠ spIndex) : (s.setReg r v).incrementSp = s.incrementSp.setReg r v := by
  rw [State.incrementSp, State.reg_setReg_ne s hr, State.setReg_comm _ _ _ hr]
  rfl

theorem State.pushReady_setReg (hr : r ≠ spIndex) : (s.setReg r v).pushReady = s.pushReady.setReg r v := by
  rw [State.pushReady, State.decrementSp, State.reg_setReg_ne s hr, State.setReg_comm _ _ _ hr]
  rfl

theorem State.writeTop_setReg (hr : r ≠ spIndex) : (s.setReg r v).writeTop w = (s.writeTop w).setReg r v := by
  rw [State.writeTop, State.stackAddress_setReg s v hr]
  rfl

end SetReg

/-! ## Instructions and a register they do not touch -/

/-- Both outcomes are next states, and the second is the first with `v` in register `r`. -/
def AgreeButReg (r : RegIndex) (v : Byte) (o o' : StepOutcome) : Prop :=
  ∃ t : State, o = .next t ∧ o' = .next (t.setReg r v)

section RegNotNamed

variable {s : State} {r : RegIndex} {v a b : Byte}

/-- From an equation of next states. -/
theorem AgreeButReg.of_eq {t t' : State} (h : t' = t.setReg r v) : AgreeButReg r v (.next t) (.next t') :=
  ⟨t, rfl, congrArg _ h⟩

/-- A register operand other than `r` is checked, and names its register, without reading `r`. -/
theorem withReg_agreeButReg {k k' : RegIndex → StepOutcome} (hi : ∀ o ∈ [a], o.toNat ≠ r.val)
    (hk : ∀ q, r ≠ q → AgreeButReg r v (k q) (k' q)) :
    AgreeButReg r v (withReg a s k) (withReg a (s.setReg r v) k') := by
  by_cases hlt : a.toNat < 8
  · rw [withReg_of_lt hlt, withReg_of_lt hlt]
    exact hk _ fun h => hi a List.mem_cons_self (congrArg Fin.val h).symm
  · rw [withReg_of_not_lt hlt, withReg_of_not_lt hlt]
    exact .of_eq rfl

/-- So are two. -/
theorem withRegs_agreeButReg {k k' : RegIndex → RegIndex → StepOutcome} (hi : ∀ o ∈ [a, b], o.toNat ≠ r.val)
    (hk : ∀ q p, r ≠ q → r ≠ p → AgreeButReg r v (k q p) (k' q p)) :
    AgreeButReg r v (withRegs a b s k) (withRegs a b (s.setReg r v) k') :=
  withReg_agreeButReg (fun o ho => hi o (List.mem_append_left [b] ho)) fun q hq =>
    withReg_agreeButReg (fun o ho => hi o (List.mem_cons_of_mem a ho)) fun p hp => hk q p hq hp

/-- Writing another register and advancing. -/
theorem setReg_autoAdvance_agreeButReg {q : RegIndex} (hq : r ≠ q) {w w' : Byte} (hw : w' = w) :
    AgreeButReg r v (.next (s.setReg q w).autoAdvance) (.next ((s.setReg r v).setReg q w').autoAdvance) :=
  .of_eq (by rw [hw, State.setReg_comm s v w hq]; rfl)

theorem aluBinary_agreeButReg (f : Byte → Byte → Byte) (hi : ∀ o ∈ [a, b], o.toNat ≠ r.val) :
    AgreeButReg r v (aluBinary f a b s) (aluBinary f a b (s.setReg r v)) :=
  withRegs_agreeButReg hi fun _ _ hq hp =>
    setReg_autoAdvance_agreeButReg hq (by rw [State.reg_setReg_ne s hq, State.reg_setReg_ne s hp])

theorem aluUnary_agreeButReg (f : Byte → Byte) (hi : ∀ o ∈ [a], o.toNat ≠ r.val) :
    AgreeButReg r v (aluUnary f a s) (aluUnary f a (s.setReg r v)) :=
  withReg_agreeButReg hi fun _ hq => setReg_autoAdvance_agreeButReg hq (by rw [State.reg_setReg_ne s hq])

/-- DIV and MOD test a divisor that is not in `r`. -/
theorem aluDivide_agreeButReg (f : Byte → Byte → Byte) (hi : ∀ o ∈ [a, b], o.toNat ≠ r.val) :
    AgreeButReg r v (aluDivide f a b s) (aluDivide f a b (s.setReg r v)) := by
  refine withRegs_agreeButReg hi fun q p hq hp => ?_
  rw [State.reg_setReg_ne s hq, State.reg_setReg_ne s hp]
  split
  · exact .of_eq rfl
  · exact setReg_autoAdvance_agreeButReg hq rfl

/-- A conditional jump tests `fl`, and its target is not in `r`. -/
theorem jumpIfFlagsAre_agreeButReg (mask : Byte) (hi : ∀ o ∈ [a], o.toNat ≠ r.val) :
    AgreeButReg r v (jumpIfFlagsAre mask a s) (jumpIfFlagsAre mask a (s.setReg r v)) := by
  refine withReg_agreeButReg hi fun q hq => .of_eq ?_
  rw [State.reg_setReg_ne s hq]
  change (if s.flagsAre mask then _ else _) = _
  split <;> rfl

/-- The stack pointer is the only register that an instruction uses without naming it (spec/10_state.md R13). -/
theorem exec_agreeButReg {i : Instr} (hsp : r ≠ spIndex) (hi : ∀ o ∈ i.regOperands, o.toNat ≠ r.val) :
    AgreeButReg r v (exec i s) (exec i (s.setReg r v)) := by
  cases i with
  | nop | hlt | iret => exact .of_eq rfl
  | ret =>
    refine .of_eq ?_
    rw [State.incrementSp_setReg s v hsp, State.readTop_setReg s v hsp]
    rfl
  | prn a | pra a | jmp a =>
    refine withReg_agreeButReg hi fun q hq => .of_eq ?_
    rw [State.reg_setReg_ne s hq]
    rfl
  | push a =>
    refine withReg_agreeButReg hi fun q hq => .of_eq ?_
    rw [State.pushReady_setReg s v hsp, State.reg_setReg_ne _ hq, State.writeTop_setReg _ v _ hsp]
    rfl
  | pop a =>
    refine withReg_agreeButReg hi fun q hq => ?_
    rw [State.incrementSp_setReg s v hsp]
    exact setReg_autoAdvance_agreeButReg hq (State.readTop_setReg s v hsp)
  | call a =>
    refine withReg_agreeButReg hi fun q hq => .of_eq ?_
    rw [State.pushReady_setReg s v hsp, State.writeTop_setReg _ v _ hsp, State.reg_setReg_ne _ hq]
    rfl
  | jeq a | jne a | jgt a | jlt a => exact jumpIfFlagsAre_agreeButReg _ hi
  | ldi a lit => exact withReg_agreeButReg hi fun q hq => setReg_autoAdvance_agreeButReg hq rfl
  | ld a b =>
    refine withRegs_agreeButReg hi fun q p hq hp => setReg_autoAdvance_agreeButReg hq ?_
    rw [State.indirectAddress, State.reg_setReg_ne s hp]
    rfl
  | st a b =>
    refine withRegs_agreeButReg hi fun q p hq hp => .of_eq ?_
    rw [State.indirectAddress, State.reg_setReg_ne s hq, State.reg_setReg_ne s hp]
    rfl
  | not a | inc a | dec a => exact aluUnary_agreeButReg _ hi
  | add a b | sub a b | mul a b | and a b | or a b | xor a b => exact aluBinary_agreeButReg _ hi
  | div a b | mod a b => exact aluDivide_agreeButReg _ hi
  | cmp a b =>
    refine withRegs_agreeButReg hi fun q p hq hp => .of_eq ?_
    rw [State.reg_setReg_ne s hq, State.reg_setReg_ne s hp]
    rfl

/-- What is not read is not written either: putting the old value of `r` into `r` leaves the old state, so the result
has that value in `r`. -/
theorem exec_reg_of_not_named {i : Instr} {t : State} (hsp : r ≠ spIndex)
    (hi : ∀ o ∈ i.regOperands, o.toNat ≠ r.val) (h : exec i s = .next t) : t.reg r = s.reg r := by
  obtain ⟨_, -, hset⟩ := exec_agreeButReg (s := s) (v := s.reg r) hsp hi
  rw [State.setReg_reg_self, h] at hset
  rw [Host.Outcome.next.inj hset, State.reg_setReg_same]

end RegNotNamed

/-- Settles O54, of every register but the stack pointer. -/
theorem maskAndStatusRegistersAreInert : Obligations.MaskAndStatusRegistersAreInert := by
  intro i s r hr v h56 hi
  have hsp : (⟨r, hr⟩ : RegIndex) ≠ spIndex := fun h => by
    have h7 : r = 7 := congrArg Fin.val h
    omega
  obtain ⟨t, h, hset⟩ := exec_agreeButReg (s := s) (r := ⟨r, hr⟩) (v := v) hsp hi
  exact ⟨t, h, exec_reg_of_not_named hsp hi h, hset⟩

end Sys2Proof.Machine

/-! # Decoding and encoding (spec/30_encoding.md R51 to R59) -/

namespace Sys2Proof.Machine

section DecodeEncode

variable {op a b : Byte} {i : Instr}

/-- Bits 6 and 5 of the opcode byte count the bytes after it (R50). -/
theorem encode_length (i : Instr) : i.encode.length = operandCount i.opcode + 1 := by
  cases i <;> simp [Instr.encode, operandCount]

theorem operandCount_lt_four (op : Byte) : operandCount op < 4 := (op.extractLsb' 5 2).isLt

/-- The bytes of an instruction, with any bytes in the places it does not use, decode to it. -/
theorem decode_encode_getD (i : Instr) (op a b : Byte) :
    decode (i.encode.getD 0 op) (i.encode.getD 1 a) (i.encode.getD 2 b) = .ok i := by
  cases i <;> rfl

/-- What is decoded encodes to the opcode byte and as many of the operand bytes as the instruction uses. -/
theorem encode_isPrefix_of_decode (h : decode op a b = .ok i) : i.encode <+: [op, a, b] := by
  unfold decode at h
  split at h
  -- NOP, HLT, IRET and RET.
  case h_1 | h_2 | h_3 | h_4 => cases h; exact ⟨[a, b], rfl⟩
  -- PRN to JLT, and the unary ALU instructions.
  case h_5 | h_6 | h_7 | h_8 | h_9 | h_10 | h_11 | h_12 | h_13 | h_14 | h_18 | h_19 | h_20 =>
    cases h; exact ⟨[b], rfl⟩
  -- The refusal of an unlisted byte.
  case h_30 => cases h
  -- LDI, LD, ST, and the binary ALU instructions.
  all_goals cases h; exact ⟨[], rfl⟩

/-- Where a list starts with `bs`, the entries of `bs` are its entries. -/
theorem getD_of_isPrefix {bs cs : List Byte} (h : bs <+: cs) (k : Nat) : bs.getD k (cs.getD k 0) = cs.getD k 0 := by
  obtain ⟨ds, rfl⟩ := h
  by_cases hk : k < bs.length
  · rw [List.getD_append _ _ _ _ hk, List.getD_eq_getElem _ _ hk, List.getD_eq_getElem _ _ hk]
  · exact List.getD_eq_default _ _ (Nat.le_of_not_lt hk)

/-- Settles O2: the encoding decides the bytes that the decoder reads, and the decoder's arms read no others. -/
theorem decodeIffEncodingIsPrefix : Obligations.DecodeIffEncodingIsPrefix := by
  refine fun i op a b => ⟨encode_isPrefix_of_decode, fun h => ?_⟩
  have hop : i.encode.getD 0 op = op := getD_of_isPrefix h 0
  have ha : i.encode.getD 1 a = a := getD_of_isPrefix h 1
  have hb : i.encode.getD 2 b = b := getD_of_isPrefix h 2
  have hdecode := decode_encode_getD i op a b
  rwa [hop, ha, hb] at hdecode

/-- Settles O3: a listed byte decodes, and a decoded byte is listed. -/
theorem unlistedOpcodesAreExactlyTheIllegalOnes : Obligations.UnlistedOpcodesAreExactlyTheIllegalOnes := by
  refine fun op a b => ⟨fun herr hop => ?_, fun hop => ?_⟩
  · obtain ⟨i, hi⟩ := decode_of_mem_legalOpcodes hop a b
    cases herr.symm.trans hi
  · cases hd : decode op a b with
    | ok i => exact absurd (opcode_of_decode hd ▸ opcode_mem_legalOpcodes i) hop
    | error e => rw [decode_error hd]

end DecodeEncode

/-- Settles O1, by evaluating the decoder on each word. -/
theorem opcodeMapWordsDecode : Obligations.OpcodeMapWordsDecode :=
  ⟨rfl, rfl, rfl, rfl, rfl, rfl, rfl, rfl, rfl, rfl, rfl, rfl, rfl, rfl, rfl, rfl⟩

/-! ## An instruction's bytes in memory (spec/20_memory.md R31, R32, spec/40_step_cycle.md R79) -/

/-- Bytes written to consecutive addresses are read back there, the wrap at the capacity included, and the cells after
them are as they were. -/
theorem Memory.read_writeBytes (bs : List Byte) (m : Memory) (addr : Nat) {k : Nat} (hk : k < 256)
    (hlen : bs.length ≤ 256) :
    Memory.read (Memory.writeBytes m addr bs) (addr + k) = bs.getD k (Memory.read m (addr + k)) := by
  induction bs generalizing m addr k with
  | nil => rfl
  | cons v vs ih =>
    rw [List.length_cons] at hlen
    rw [Memory.writeBytes]
    cases k with
    | zero =>
      rw [Memory.read_writeBytes_ne _ _ _ _ fun j hj => by omega, List.getD_cons_zero]
      exact Memory.read_write_same m addr v
    | succ k =>
      rw [show addr + (k + 1) = addr + 1 + k by omega, ih _ _ (by omega) (by omega), List.getD_cons_succ,
        Memory.read_write_ne _ _ (by omega)]

/-- Where memory holds an instruction's bytes at `pc`, a step decodes that instruction. -/
theorem decodeFetched_of_writeBytes {s : State} {m : Memory} {i : Instr}
    (hmem : s.mem = Memory.writeBytes m s.pc.toNat i.encode) : s.fetchOpcode.decodeFetched = .ok i := by
  have hlen : i.encode.length ≤ 256 := by
    have hcount := operandCount_lt_four i.opcode
    rw [encode_length]; omega
  have hbyte {k : Nat} (hk : k < 256) :
      Memory.read s.mem (s.pc.toNat + k) = i.encode.getD k (Memory.read m (s.pc.toNat + k)) :=
    hmem ▸ Memory.read_writeBytes i.encode m s.pc.toNat hk hlen
  change decode (Memory.read s.mem (s.pc.toNat + 0)) (Memory.read s.mem (s.pc.toNat + 1))
    (Memory.read s.mem (s.pc.toNat + 2)) = .ok i
  rw [hbyte (by decide), hbyte (by decide), hbyte (by decide)]
  exact decode_encode_getD i _ _ _

/-- Settles O5: the step decodes the instruction from the bytes written, and the first of them is in `ir`. -/
theorem encodedInstructionInMemoryRuns : Obligations.EncodedInstructionInMemoryRuns := by
  intro i s hs
  have hdecode := decodeFetched_of_writeBytes (m := s.mem) (i := i)
    (s := { s with mem := Memory.writeBytes s.mem s.pc.toNat i.encode }) rfl
  rw [opcode_of_decode hdecode]
  exact step_eq_exec_of_decode hs hdecode

/-- Settles O6: what the step fetches and decodes is what it executes. -/
theorem stepRunsTheDecodedInstruction : Obligations.StepRunsTheDecodedInstruction :=
  fun _ _ hs hdecode => step_eq_exec_of_decode hs hdecode

end Sys2Proof.Machine

/-! # Conditional jumps after two CMP outcomes (spec/70_reset_and_hazards.md R241, spec/44_control_transfer.md R148) -/

namespace Sys2Proof.Machine

/-! ## The address past the instruction in `ir` (spec/40_step_cycle.md R73, R77) -/

section NextAddress

variable {s : State} {i : Instr}

/-- With the instruction's own opcode byte in `ir`, the auto-advance is by the instruction's length. -/
theorem nextAddress_of_opcode (h : s.ir = i.opcode) :
    nextAddress s = s.pc + BitVec.ofNat 8 i.encode.length := by
  rw [encode_length, operandCount_eq, ← h, BitVec.ofNat_add, BitVec.ofNat_toNat, BitVec.setWidth_eq,
    ← BitVec.add_assoc]
  rfl

theorem nextAddress_of_divMod (h : s.ir = 0xC3 ∨ s.ir = 0xC4) : nextAddress s = s.pc + 3 := by
  obtain h | h := h
  · exact nextAddress_of_opcode (i := .div 0 0) h
  · exact nextAddress_of_opcode (i := .mod 0 0) h

end NextAddress

/-! ## The flags -/

/-- The constants of the four conditional jumps have at most one of the bits E, G and L. -/
theorem jumpConstant_lacks_a_flag :
    ∀ c ∈ [(1 : Byte), 0, 2, 4], ∀ p ∈ [(1 : Byte), 2, 4], ∀ q ∈ [(1 : Byte), 2, 4],
      p ≠ q → c &&& p = p → c &&& q ≠ q := by
  decide

/-- A bit that is set stays set in a run. -/
theorem run_keeps_set_flag {n : Nat} {s t : State} {p : Byte} (hs : s.fl &&& p = p)
    (h : Host.Core.run Sys2Proof.core n s = .next t) : t.fl &&& p = p := by
  refine run_induction (P := fun u => u.fl &&& p = p) (fun u v hu hstep => ?_) hs h
  have hkeep := step_keeps_set_flags hstep
  calc v.fl &&& p = v.fl &&& (u.fl &&& p) := by rw [hu]
    _ = (u.fl &&& v.fl) &&& p := by rw [← BitVec.and_assoc, BitVec.and_comm v.fl]
    _ = p := by rw [hkeep, hu]

/-- A conditional jump has one of four constants, and two bytes. -/
theorem conditionalJump_constant {a : Byte} {i : Instr} (hi : i ∈ [Instr.jeq a, .jne a, .jgt a, .jlt a]) :
    i.encode.length = 2 ∧ ∃ c ∈ [(1 : Byte), 0, 2, 4],
      (i, c) ∈ [(Instr.jeq a, (1 : Byte)), (.jne a, 0), (.jgt a, 2), (.jlt a, 4)] := by
  simp only [List.mem_cons, List.not_mem_nil, or_false] at hi
  obtain rfl | rfl | rfl | rfl := hi
  · exact ⟨rfl, 1, by simp⟩
  · exact ⟨rfl, 0, by simp⟩
  · exact ⟨rfl, 2, by simp⟩
  · exact ⟨rfl, 4, by simp⟩

/-- Settles O27: the two bits stay set through the run, and `fl` with two bits equals no jump's constant. -/
theorem flagExhaustionEndsConditionalJumps : Obligations.FlagExhaustionEndsConditionalJumps := by
  intro n s t p q hp hq hpq hsp hsq hrun
  have htp := run_keeps_set_flag hsp hrun
  have htq := run_keeps_set_flag hsq hrun
  refine ⟨⟨htp, htq⟩, fun a i ha hi ht hdecode => ?_⟩
  obtain ⟨hlen, c, hc, hjump⟩ := conditionalJump_constant hi
  have hfl : t.fl ≠ c := by
    rintro rfl
    exact jumpConstant_lacks_a_flag _ hc p hp q hq hpq htp htq
  have hnext : nextAddress t.fetchOpcode = t.pc + 2 := by
    rw [nextAddress_of_opcode (opcode_of_decode hdecode).symm, hlen]
    rfl
  rw [step_eq_exec_of_decode ht hdecode, exec_conditionalJump ha hjump, State.fetchOpcode_fl, if_neg hfl, hnext]
  rfl

end Sys2Proof.Machine

/-! # The invariant (spec/10_state.md R17, R21, spec/60_exceptions.md R201) -/

namespace Sys2Proof.Machine

/-! ## How an instruction leaves the halt bookkeeping -/

section HaltRecord

variable {s t : State} {i : Instr}

/-- `run`, `cause` and the error channel are as they were. -/
def HaltStateKept (s t : State) : Prop := t.run = s.run ∧ t.cause = s.cause ∧ t.errors = s.errors

/-- The three ways in which an instruction touches the halt bookkeeping, and all the others. -/
theorem ExecShape.halt_cases (h : ExecShape s i t) :
    (i.wellFormed = false ∧ t = raise .invalidRegister s) ∨
    ((i.opcode = 0xC3 ∨ i.opcode = 0xC4) ∧ t = (raise .divZero s).autoAdvance) ∨
    (i = .hlt ∧ t = (s.halt .hlt).autoAdvance) ∨ HaltStateKept s t := by
  cases h with
  | invalid hbad => exact .inl ⟨hbad, rfl⟩
  | divZero hop => exact .inr (.inl ⟨hop, rfl⟩)
  | halted => exact .inr (.inr (.inl ⟨rfl, rfl⟩))
  | _ => exact .inr (.inr (.inr ⟨rfl, rfl, rfl⟩))

/-- The halt record of a running machine: no cause, no error event. -/
theorem State.haltRecord_of_running (hs : s.run = true) :
    s.haltRecord = true ↔ s.cause = .none ∧ s.errors = [] := by
  cases hc : s.cause <;> simp [State.haltRecord, hc, hs]

/-- The halt record of a division by zero, which has advanced past a DIV or MOD. -/
theorem State.haltRecord_of_divZero (hc : s.cause = .divZero) :
    s.haltRecord = true ↔
      s.run = false ∧ s.errors = [⟨.divZero, s.ir, s.pc - 3⟩] ∧ (s.ir = 0xC3 ∨ s.ir = 0xC4) := by
  simp [State.haltRecord, hc, and_assoc]

/-- An instruction run on a running machine, with its opcode byte in `ir`, leaves a consistent halt record. -/
theorem ExecShape.haltRecord (h : ExecShape s i t) (hir : i.opcode = s.ir) (hs : s.run = true)
    (hrec : s.haltRecord = true) : t.haltRecord = true := by
  obtain ⟨hcause, herrors⟩ := (State.haltRecord_of_running hs).1 hrec
  obtain ⟨-, rfl⟩ | ⟨hop, rfl⟩ | ⟨rfl, rfl⟩ | ⟨hrun', hcause', herrors'⟩ := h.halt_cases
  · simp [State.haltRecord, FaultKind.cause, herrors]
  · rw [hir] at hop
    have hpc : (raise .divZero s).autoAdvance.pc = s.pc + 3 :=
      (State.autoAdvance_pc _).trans (nextAddress_of_divMod hop)
    refine (State.haltRecord_of_divZero rfl).2 ⟨rfl, ?_, hop⟩
    rw [hpc, BitVec.add_sub_cancel, State.autoAdvance_errors, raise_errors, herrors]
    rfl
  · rw [opcode_hlt] at hir
    simp [State.haltRecord, herrors, ← hir]
  · rw [State.haltRecord_of_running (hrun'.trans hs)]
    exact ⟨hcause'.trans hcause, herrors'.trans herrors⟩

/-! ## The three parts of the invariant through a step -/

theorem State.inv_iff (s : State) :
    s.inv = true ↔ Memory.wf s.mem = true ∧ s.fl.toNat < 8 ∧ s.haltRecord = true := by
  simp only [State.inv, State.flagsLegal, Bool.and_eq_true, decide_eq_true_eq, and_assoc]

/-- What an instruction stores, it stores by a write. -/
theorem ExecShape.mem_cases (h : ExecShape s i t) : t.mem = s.mem ∨
    ∃ (a : Nat) (v : Byte), storeTarget i s = some a ∧ t.mem = Memory.write s.mem a v := by
  cases h with
  | store hr v => exact .inr ⟨_, v, by rw [storeTarget, hr, Option.map_some], rfl⟩
  | push v => exact .inr ⟨_, v, rfl, rfl⟩
  | call r => exact .inr ⟨_, _, rfl, rfl⟩
  | _ => exact .inl rfl

theorem exec_keeps_wf (h : exec i s = .next t) (hs : Memory.wf s.mem = true) : Memory.wf t.mem = true := by
  obtain hmem | ⟨a, v, -, hmem⟩ := (exec_shape h).mem_cases
  · rwa [hmem]
  · rw [hmem]
    exact Memory.wf_write a v hs

theorem step_keeps_wf (h : step s = .next t) (hs : Memory.wf s.mem = true) : Memory.wf t.mem = true := by
  obtain ⟨-, rfl⟩ | ⟨-, -, rfl⟩ | ⟨-, i, -, -, hexec⟩ := step_cases h
  · exact hs
  · exact hs
  · exact exec_keeps_wf (s := s.fetchOpcode) hexec hs

theorem step_keeps_haltRecord (h : step s = .next t) (hrec : s.haltRecord = true) : t.haltRecord = true := by
  obtain ⟨-, rfl⟩ | ⟨hs, -, rfl⟩ | ⟨hs, i, -, hir, hexec⟩ := step_cases h
  · exact hrec
  · obtain ⟨-, herrors⟩ := (State.haltRecord_of_running hs).1 hrec
    simp [State.haltRecord, FaultKind.cause, herrors]
  · have hfetch : s.fetchOpcode.haltRecord = true :=
      (State.haltRecord_of_running (s := s.fetchOpcode) hs).2 ((State.haltRecord_of_running hs).1 hrec)
    exact (exec_shape hexec).haltRecord hir hs hfetch

theorem step_keeps_inv (h : step s = .next t) (hs : s.inv = true) : t.inv = true := by
  obtain ⟨hwf, hfl, hrec⟩ := (State.inv_iff s).1 hs
  exact (State.inv_iff t).2 ⟨step_keeps_wf h hwf, step_keeps_flags_lt_eight h hfl, step_keeps_haltRecord h hrec⟩

end HaltRecord

/-- Settles O42: each part of the invariant is kept by every step. -/
theorem stepKeepsInvariant : Obligations.StepKeepsInvariant := by
  intro s hs
  obtain ⟨t, h⟩ := step_next s
  exact ⟨t, h, step_keeps_inv h hs⟩

/-- Settles O43, by evaluating the invariant. -/
theorem resetMeetsInvariant : Obligations.ResetMeetsInvariant := rfl

/-- Settles O44: the loader keeps the canonical form of the empty memory, and the other parts do not read memory. -/
theorem everyBootStateMeetsInvariant : Obligations.EveryBootStateMeetsInvariant := by
  intro image
  have hwf : Memory.wf (State.boot image).mem = true := Memory.wf_writeBytes image 0 rfl
  exact (State.inv_iff _).2 ⟨hwf, Nat.zero_lt_succ 7, rfl⟩

/-! ## Sequences of inputs (spec/50_interfaces.md R170 to R175) -/

section Inputs

variable {s : State}

/-- The first input answered, the others are answered from there. -/
theorem respondAll_cons {e : ExternalEvent} {t : State} (h : respond e s = .next t) (es : List ExternalEvent) :
    respondAll (e :: es) s = respondAll es t := by
  simp only [respondAll, h]

theorem respond_keeps_inv (e : ExternalEvent) (hs : s.inv = true) : ∃ t, respond e s = .next t ∧ t.inv = true := by
  cases e with
  | tick => exact stepKeepsInvariant s hs
  | reset image => exact ⟨_, rfl, everyBootStateMeetsInvariant image⟩

theorem respondAll_keeps_inv (es : List ExternalEvent) (hs : s.inv = true) :
    ∃ t, respondAll es s = .next t ∧ t.inv = true := by
  induction es generalizing s with
  | nil => exact ⟨s, rfl, hs⟩
  | cons e es ih =>
    obtain ⟨u, hu, hinv⟩ := respond_keeps_inv e hs
    rw [respondAll_cons hu]
    exact ih hinv

/-- The halt record, row by row of the table of causes: at most one error event, one exactly for a fault, and a halt
cause exactly if the machine is halted. -/
theorem State.errors_of_haltRecord (hrec : s.haltRecord = true) :
    s.errors.length ≤ 1 ∧ (s.errors.length = 1 ↔ s.goneWrong = true) ∧ (s.run = false ↔ s.cause ≠ .none) := by
  cases hc : s.cause
  all_goals
    simp only [State.haltRecord, hc, Bool.and_eq_true, Bool.not_eq_true', decide_eq_true_eq] at hrec
    simp [State.goneWrong, hc, hrec]

end Inputs

/-- Settles O45, by induction on the inputs; the bounds on the error channel are read off the halt record. -/
theorem everyInputSequenceKeepsInvariant : Obligations.EveryInputSequenceKeepsInvariant := by
  intro es s hs
  obtain ⟨t, h, hinv⟩ := respondAll_keeps_inv es hs
  obtain ⟨-, -, hrec⟩ := (State.inv_iff t).1 hinv
  exact ⟨t, h, hinv, State.errors_of_haltRecord hrec⟩

end Sys2Proof.Machine

/-! # The ALU instructions (spec/41_alu.md) -/

namespace Sys2Proof.Machine

section AluResults

variable {s : State} {a b v : Byte} {f : Byte → Byte → Byte}

/-! ## The shared shapes, with the value written out -/

theorem aluBinary_eq (ha : a.toNat < 8) (hb : b.toNat < 8) (hv : f s.regs[a.toNat] s.regs[b.toNat] = v) :
    aluBinary f a b s = .next { s with regs := s.regs.set a.toNat v, pc := nextAddress s } :=
  hv ▸ aluBinary_of_lt f ha hb s

theorem aluUnary_eq {f : Byte → Byte} (ha : a.toNat < 8) (hv : f s.regs[a.toNat] = v) :
    aluUnary f a s = .next { s with regs := s.regs.set a.toNat v, pc := nextAddress s } :=
  hv ▸ aluUnary_of_lt f ha s

theorem aluDivide_eq (ha : a.toNat < 8) (hb : b.toNat < 8) (hz : s.regs[b.toNat] ≠ 0)
    (hv : f s.regs[a.toNat] s.regs[b.toNat] = v) :
    aluDivide f a b s = .next { s with regs := s.regs.set a.toNat v, pc := nextAddress s } :=
  hv ▸ aluDivide_of_ne f ha hb s hz

/-- An instruction that writes to a register the value it holds only advances. -/
theorem aluBinary_eq_advance (ha : a.toNat < 8) (hb : b.toNat < 8)
    (hv : f s.regs[a.toNat] s.regs[b.toNat] = s.regs[a.toNat]) :
    aluBinary f a b s = .next { s with pc := nextAddress s } := by
  rw [aluBinary_eq ha hb hv, Vector.set_getElem_self]

theorem exec_cmp_of_lt (ha : a.toNat < 8) (hb : b.toNat < 8) (s : State) :
    exec (.cmp a b) s = .next { s with
      fl := s.fl ||| compareFlag s.regs[a.toNat] s.regs[b.toNat], pc := nextAddress s } :=
  (withRegs_of_lt ha hb s _).trans (congrArg _ (State.autoAdvance_eq _))

/-! ## The values over the natural numbers -/

variable (x y : Byte)

theorem aluAdd_eq_ofNat : aluAdd x y = BitVec.ofNat 8 (x.toNat + y.toNat) := by
  rw [aluAdd_eq, BitVec.add_def]

/-- The difference is taken above 256, so that it is a natural number. -/
theorem aluSub_eq_ofNat : aluSub x y = BitVec.ofNat 8 (x.toNat + 256 - y.toNat) := by
  have hy := y.isLt
  rw [aluSub_eq, BitVec.sub_def, show x.toNat + 256 - y.toNat = 2 ^ 8 - y.toNat + x.toNat by omega]

theorem aluMul_eq_ofNat : aluMul x y = BitVec.ofNat 8 (x.toNat * y.toNat) := by
  rw [aluMul_eq, BitVec.mul_def]; rfl

theorem not_eq_ofNat : ~~~x = BitVec.ofNat 8 (255 - x.toNat) := by
  apply BitVec.eq_of_toNat_eq
  rw [BitVec.toNat_not, BitVec.toNat_ofNat]
  omega

theorem aluInc_eq_ofNat : aluInc x = BitVec.ofNat 8 (x.toNat + 1) :=
  (aluInc_eq x).trans (aluAdd_eq x 1 ▸ aluAdd_eq_ofNat x 1)

/-- One less is 255 more. -/
theorem aluDec_eq_ofNat : aluDec x = BitVec.ofNat 8 (x.toNat + 255) :=
  (aluDec_eq x).trans (aluSub_eq x 1 ▸ aluSub_eq_ofNat x 1)

end AluResults

/-- Settles O10: the reduced integers are those of the natural numbers. -/
theorem addSubMulResults : Obligations.AddSubMulResults :=
  fun _ _ _ ha hb =>
    ⟨aluBinary_eq ha hb (aluAdd_eq_ofNat _ _), aluBinary_eq ha hb (aluSub_eq_ofNat _ _),
      aluBinary_eq ha hb (aluMul_eq_ofNat _ _)⟩

/-- Settles O11: the three values are the bitwise operations, read bit by bit. -/
theorem bitwiseResults : Obligations.BitwiseResults :=
  fun s _ _ ha hb =>
    ⟨_, _, _, aluBinary_of_lt _ ha hb s, aluBinary_of_lt _ ha hb s, aluBinary_of_lt _ ha hb s,
      fun _ _ => ⟨BitVec.getLsbD_and, BitVec.getLsbD_or, BitVec.getLsbD_xor⟩⟩

/-- Settles O12, from the unary shape. -/
theorem notIncDecResults : Obligations.NotIncDecResults :=
  fun _ _ ha =>
    ⟨aluUnary_eq ha (not_eq_ofNat _), aluUnary_eq ha (aluInc_eq_ofNat _), aluUnary_eq ha (aluDec_eq_ofNat _)⟩

/-- Settles O13, from the shape of a division that does not fault. -/
theorem divModResults : Obligations.DivModResults :=
  fun _ _ _ ha hb hz => ⟨aluDivide_eq ha hb hz (aluDiv_eq _ _), aluDivide_eq ha hb hz (aluMod_eq _ _)⟩

/-- Settles O14: the fault first, then the advance past the instruction. -/
theorem divModByZeroHalts : Obligations.DivModByZeroHalts :=
  fun _ _ _ ha hb _ hi hz => exec_divMod_of_zero hi ha hb hz

/-- Settles O15: the two registers hold quotient and remainder of the unsigned values. -/
theorem quotientAndRemainderReconstruct : Obligations.QuotientAndRemainderReconstruct := by
  intro s a b ha hb hz
  obtain ⟨hdiv, hmod⟩ := divModResults s a b ha hb hz
  refine ⟨_, _, hdiv, hmod, ?_⟩
  have hpos : 0 < s.regs[b.toNat].toNat := Nat.pos_of_ne_zero fun h => hz (BitVec.eq_of_toNat_eq h)
  simp only [Vector.getElem_set_self, BitVec.toNat_udiv, BitVec.toNat_umod]
  exact ⟨Nat.div_add_mod' _ _, Nat.mod_lt _ hpos⟩

/-- Settles O16: the comparison's one bit. -/
theorem compareOrsOneOutcomeBit : Obligations.CompareOrsOneOutcomeBit :=
  fun s _ _ ha hb => exec_cmp_of_lt ha hb s

/-- Settles O17: each instruction on two copies of one value. -/
theorem equalOperandRegistersUseOldValueTwice : Obligations.EqualOperandRegistersUseOldValueTwice := by
  intro s a ha
  generalize hx : s.regs[a.toNat] = x
  refine ⟨aluBinary_eq ha ha ?_, aluBinary_eq ha ha ?_, aluBinary_eq ha ha ?_, aluBinary_eq ha ha ?_,
    aluBinary_eq_advance ha ha ?_, aluBinary_eq_advance ha ha ?_, ?_, fun hz => ⟨?_, ?_⟩⟩
  · rw [hx, aluAdd_eq]; exact BitVec.two_mul.symm
  · rw [hx, aluSub_eq, BitVec.sub_self]; rfl
  · rw [hx, BitVec.xor_self]; rfl
  · rw [hx, aluMul_eq]
  · exact BitVec.and_self
  · exact BitVec.or_self
  · rw [exec_cmp_of_lt ha ha, compareFlag, if_pos rfl]
    rfl
  · exact aluDivide_eq ha ha (hx ▸ hz) (by rw [hx, aluDiv_eq, BitVec.udiv_self, if_neg (by simpa using hz)]; rfl)
  · exact aluDivide_eq ha ha (hx ▸ hz) (by rw [hx, aluMod_eq, BitVec.umod_self]; rfl)

end Sys2Proof.Machine

/-! # Loads, stores, the stack and control transfer (spec/42_load_store.md, 43_stack.md, 44_control_transfer.md) -/

namespace Sys2Proof.Machine

section LoadStore

variable {a b : Byte} (s : State)

theorem exec_ldi_of_lt (ha : a.toNat < 8) (lit : Byte) :
    exec (.ldi a lit) s = .next { s with regs := s.regs.set a.toNat lit, pc := nextAddress s } :=
  (withReg_of_lt ha s _).trans (congrArg _ (State.autoAdvance_eq _))

theorem exec_ld_of_lt (ha : a.toNat < 8) (hb : b.toNat < 8) :
    exec (.ld a b) s = .next { s with
      regs := s.regs.set a.toNat (Memory.read s.mem s.regs[b.toNat].toNat), pc := nextAddress s } :=
  (withRegs_of_lt ha hb s _).trans (congrArg _ (State.autoAdvance_eq _))

theorem exec_st_of_lt (ha : a.toNat < 8) (hb : b.toNat < 8) :
    exec (.st a b) s = .next { s with
      mem := Memory.write s.mem s.regs[a.toNat].toNat s.regs[b.toNat], pc := nextAddress s } :=
  (withRegs_of_lt ha hb s _).trans (congrArg _ (State.autoAdvance_eq _))

/-- A write at an address below 256 leaves every other cell. -/
theorem Memory.read_write_byte_ne (m : Memory) {addr v : Byte} {x : Nat} (hx : x % 256 ≠ addr.toNat) :
    Memory.read (Memory.write m addr.toNat v) x = Memory.read m x :=
  Memory.read_write_ne m v fun h => hx ((Nat.mod_eq_of_lt addr.isLt ▸ h).symm)

end LoadStore

/-- Settles O18: the address is read from the old registers. -/
theorem loadResults : Obligations.LoadResults :=
  fun s _ _ lit ha hb => ⟨exec_ldi_of_lt s ha lit, exec_ld_of_lt s ha hb⟩

/-- Settles O19, by the laws of a write. -/
theorem storeResult : Obligations.StoreResult :=
  fun s _ _ ha hb =>
    ⟨_, exec_st_of_lt s ha hb, Memory.read_write_same _ _ _, fun _ hx => Memory.read_write_byte_ne _ hx⟩

/-! ## The stack -/

section Stack

variable {a : Byte} (s : State)

/-- A push: the stack pointer first, then the byte at the new top. -/
theorem State.pushReady_writeTop (v : Byte) :
    s.pushReady.writeTop v = { s with
      regs := s.regs.set 7 (s.regs[7] - 1), mem := Memory.write s.mem (s.regs[7] - 1).toNat v } := by
  rw [State.writeTop, State.pushReady_stackAddress, ← State.pushReady_regs]
  rfl

theorem State.incrementSp_eq : s.incrementSp = { s with regs := s.regs.set 7 (s.regs[7] + 1) } := by
  rw [← State.incrementSp_regs]
  rfl

/-- A register read after the decrement of the stack pointer. -/
theorem State.pushReady_reg (ha : a.toNat < 8) :
    s.pushReady.reg ⟨a.toNat, ha⟩ = if a = 7 then s.regs[7] - 1 else s.regs[a.toNat] := by
  have h7 : 7 = a.toNat ↔ a = 7 := ⟨fun h => BitVec.eq_of_toNat_eq h.symm, fun h => h ▸ rfl⟩
  simp only [State.reg, State.pushReady_regs, Vector.getElem_set, h7]

theorem exec_push_of_lt (ha : a.toNat < 8) :
    exec (.push a) s = .next { s with
      regs := s.regs.set 7 (s.regs[7] - 1),
      mem := Memory.write s.mem (s.regs[7] - 1).toNat (if a = 7 then s.regs[7] - 1 else s.regs[a.toNat]),
      pc := nextAddress s } := by
  rw [exec, execPush, withReg_of_lt ha, State.autoAdvance_eq, State.pushReady_reg, State.pushReady_writeTop]
  rfl

theorem exec_pop_of_lt (ha : a.toNat < 8) :
    exec (.pop a) s = .next { s with
      regs := (s.regs.set 7 (s.regs[7] + 1)).set a.toNat (Memory.read s.mem s.regs[7].toNat),
      pc := nextAddress s } := by
  rw [exec, execPop, withReg_of_lt ha, State.autoAdvance_eq, State.readTop_eq, State.incrementSp_eq]
  rfl

theorem exec_call_of_lt (ha : a.toNat < 8) :
    exec (.call a) s = .next { s with
      regs := s.regs.set 7 (s.regs[7] - 1),
      mem := Memory.write s.mem (s.regs[7] - 1).toNat (s.pc + 2),
      pc := if a = 7 then s.regs[7] - 1 else s.regs[a.toNat] } := by
  rw [exec, execCall, withReg_of_lt ha, State.returnAddress_eq]
  change Host.Outcome.next ((s.pushReady.writeTop (s.pc + 2)).jumpTo (s.pushReady.reg ⟨a.toNat, ha⟩)) = _
  rw [State.pushReady_reg, State.pushReady_writeTop]
  rfl

theorem exec_ret :
    exec .ret s = .next { s with
      regs := s.regs.set 7 (s.regs[7] + 1), pc := Memory.read s.mem s.regs[7].toNat } := by
  rw [exec, execRet, State.readTop_eq, State.incrementSp_eq]
  rfl

end Stack

/-- Settles O20: one write, at the decremented stack pointer. -/
theorem pushResult : Obligations.PushResult :=
  fun s _ ha =>
    ⟨_, exec_push_of_lt s ha, Memory.read_write_same _ _ _, fun _ hx => Memory.read_write_byte_ne _ hx⟩

/-- Settles O21: the destination is written over the moved stack pointer. -/
theorem popResult : Obligations.PopResult := fun s _ ha => exec_pop_of_lt s ha

/-- Settles O22: the pop reads the cell that the push wrote and puts the stack pointer back, so of the old registers
only the popped one changes. -/
theorem pushThenPopMovesTheValue : Obligations.PushThenPopMovesTheValue := by
  intro s a b ha hb
  refine ⟨_, _, exec_push_of_lt s ha, exec_pop_of_lt _ hb, ?_⟩
  simp only [Vector.getElem_set_self, Memory.read_write_same, Vector.set_set, BitVec.sub_add_cancel,
    Vector.set_getElem_self]
  refine ⟨trivial, fun hb7 => ?_, fun n _ hnb _ => Vector.getElem_set_ne _ _ hnb.symm⟩
  exact Vector.getElem_set_ne _ _ fun h => hb7 (BitVec.eq_of_toNat_eq h)

/-- Settles O23: the push of the return address, then the jump. -/
theorem callResult : Obligations.CallResult :=
  fun s _ ha =>
    ⟨_, exec_call_of_lt s ha, Memory.read_write_same _ _ _, fun _ hx => Memory.read_write_byte_ne _ hx⟩

/-- Settles O24: the pop, then the jump. -/
theorem returnResult : Obligations.ReturnResult := exec_ret

/-- Settles O25: the byte at the stack pointer is the return address that CALL pushed. -/
theorem callThenReturnResumesAfterCall : Obligations.CallThenReturnResumesAfterCall := by
  intro s a ha
  refine ⟨_, exec_call_of_lt s ha, fun v hsp hbyte => ⟨_, exec_ret v, ?_, ?_⟩⟩
  · rw [hsp, hbyte]
    simp only [Vector.getElem_set_self, Memory.read_write_same]
  · rw [Vector.getElem_set_self, hsp]
    simp only [Vector.getElem_set_self, BitVec.sub_add_cancel]

/-! ## Jumps, HLT, NOP, IRET and output (spec/44_control_transfer.md, spec/45_system_io.md) -/

theorem exec_jmp_of_lt {a : Byte} (ha : a.toNat < 8) (s : State) :
    exec (.jmp a) s = .next { s with pc := s.regs[a.toNat] } :=
  withReg_of_lt ha s _

/-- Settles O26: the four conditional jumps are one shape with four constants. -/
theorem jumpAndConditionalJumpResults : Obligations.JumpAndConditionalJumpResults :=
  fun s _ ha =>
    ⟨exec_jmp_of_lt ha s, exec_conditionalJump ha (by simp), exec_conditionalJump ha (by simp),
      exec_conditionalJump ha (by simp), exec_conditionalJump ha (by simp)⟩

/-- Settles O28: the halt, then the advance. -/
theorem haltInstructionResult : Obligations.HaltInstructionResult :=
  fun _ => congrArg _ (State.autoAdvance_eq _)

/-- Settles O29: both are the advance alone. -/
theorem nopAndIretOnlyAdvance : Obligations.NopAndIretOnlyAdvance :=
  fun s => ⟨congrArg _ s.autoAdvance_eq, congrArg _ s.autoAdvance_eq⟩

/-- Settles O30: the event, then the advance. -/
theorem printResults : Obligations.PrintResults :=
  fun s _ ha =>
    ⟨(withReg_of_lt ha s _).trans (congrArg _ (State.autoAdvance_eq _)),
      (withReg_of_lt ha s _).trans (congrArg _ (State.autoAdvance_eq _))⟩

end Sys2Proof.Machine

/-! # The faults of a step (spec/60_exceptions.md R205 to R209) -/

namespace Sys2Proof.Machine

/-- A fault writes the halt bookkeeping alone. -/
theorem raise_eq (k : FaultKind) (s : State) :
    raise k s = { s with run := false, cause := k.cause, errors := s.errors ++ [⟨k, s.ir, s.pc⟩] } := rfl

/-- The first fault is the only event of the error channel. -/
theorem raise_of_no_errors {s : State} (hs : s.errors = []) (k : FaultKind) :
    raise k s = { s with run := false, cause := k.cause, errors := [⟨k, s.ir, s.pc⟩] } := by
  rw [raise_eq, hs]
  rfl

/-- Settles O7: with no instruction found, the step is the fetch and the fault. -/
theorem unlistedOpcodeHalts : Obligations.UnlistedOpcodeHalts := by
  intro s hs hop
  obtain ⟨t, h⟩ := step_next s
  rw [h, step_eq_raise_of_illegal hs hop h, raise_eq]
  rfl

/-- Settles O8: the operand check comes before any effect. -/
theorem invalidRegisterOperandHalts : Obligations.InvalidRegisterOperandHalts :=
  fun _ s hi => exec_of_not_wellFormed hi s

/-- Settles O9: each fault's step is known as a whole, and its cause with it. -/
theorem faultsHaveOnePriority : Obligations.FaultsHaveOnePriority := by
  intro s hs
  obtain ⟨t, h⟩ := step_next s
  refine ⟨t, h, fun hop => ?_, fun i hdecode => ?_⟩
  · rw [step_eq_raise_of_illegal hs hop h]
    rfl
  · rw [step_eq_exec_of_decode hs hdecode] at h
    refine ⟨fun hbad => ?_, fun a b ha hb hdiv hz => ?_⟩
    · rw [exec_of_not_wellFormed hbad] at h
      rw [← Host.Outcome.next.inj h]
      rfl
    · rw [exec_divMod_of_zero (s := s.fetchOpcode) hdiv ha hb hz] at h
      rw [← Host.Outcome.next.inj h]
      rfl

/-- Settles O48: of the ways in which a step touches the halt bookkeeping, the three faults alone make a running machine
go wrong. -/
theorem faultsArePrecise : Obligations.FaultsArePrecise := by
  intro s hinv hs
  obtain ⟨-, -, hrec⟩ := (State.inv_iff s).1 hinv
  obtain ⟨hcause, herrors⟩ := (State.haltRecord_of_running hs).1 hrec
  have hraise := raise_of_no_errors (s := s.fetchOpcode) herrors
  obtain ⟨t, h⟩ := step_next s
  refine ⟨t, h, fun hwrong => ?_⟩
  obtain ⟨hhalted, -⟩ | ⟨-, -, rfl⟩ | ⟨-, i, -, hir, hexec⟩ := step_cases h
  · cases hs.symm.trans hhalted
  · exact ⟨.illegalOpcode, hraise _⟩
  · obtain ⟨-, rfl⟩ | ⟨hop, rfl⟩ | ⟨-, rfl⟩ | ⟨-, hkept, -⟩ := (exec_shape hexec).halt_cases
    · exact ⟨.invalidRegister, hraise _⟩
    · have hnext := nextAddress_of_divMod (s := raise .divZero s.fetchOpcode) (hir ▸ hop)
      refine ⟨.divZero, ?_⟩
      rw [State.autoAdvance_eq, hnext, hraise]
      rfl
    · cases hwrong
    · rw [State.goneWrong, hkept, State.fetchOpcode_cause, hcause] at hwrong
      cases hwrong

end Sys2Proof.Machine

/-! # What an instruction leaves unchanged -/

namespace Sys2Proof.Machine

section Frames

variable {s t : State} {i : Instr}

/-! ## Registers (spec/10_state.md R10, R13) -/

/-- The instructions that use the stack may write the stack pointer. -/
theorem ExecShape.regs_frame (h : ExecShape s i t) {n : Nat} (hn : n < 8) (hi : mayWriteReg i n = false) :
    t.regs[n] = s.regs[n] := by
  cases h with
  | @register _ r hr v =>
    refine Vector.getElem_set_ne r.isLt hn fun h => ?_
    rw [h, hi] at hr
    cases hr
  | push | call | ret =>
    have h7 : n ≠ 7 := of_decide_eq_false hi
    simp [Vector.getElem_set_ne, h7.symm]
  | @pop a ha =>
    obtain ⟨h7, hna⟩ := Bool.or_eq_false_iff.1 hi
    have h7 : n ≠ 7 := of_decide_eq_false h7
    have hna : n ≠ a.toNat := of_decide_eq_false hna
    simp [Vector.getElem_set_ne, h7.symm, hna.symm]
  | _ => rfl

/-! ## Memory (spec/20_memory.md R35) -/

theorem storeTarget_lt {x : Nat} (h : storeTarget i s = some x) : x < 256 := by
  cases i with
  | st a b =>
    obtain ⟨r, -, rfl⟩ := Option.map_eq_some_iff.1 h
    exact (s.reg r).isLt
  | push a | call a =>
    cases h
    exact (s.pushReady.reg spIndex).isLt
  | _ => cases h

theorem exec_mem_of_no_store (h : exec i s = .next t) (hi : storeTarget i s = none) : t.mem = s.mem := by
  obtain hmem | ⟨x, v, hstore, -⟩ := (exec_shape h).mem_cases
  · exact hmem
  · cases hi.symm.trans hstore

theorem exec_read_frame (h : exec i s = .next t) {x : Nat} (hx : ∀ y, storeTarget i s = some y → x % 256 ≠ y) :
    Memory.read t.mem x = Memory.read s.mem x := by
  obtain hmem | ⟨y, v, hstore, hmem⟩ := (exec_shape h).mem_cases
  · rw [hmem]
  · rw [hmem, Memory.read_write_ne]
    rw [Nat.mod_eq_of_lt (storeTarget_lt hstore)]
    exact (hx y hstore).symm

/-! ## The console stream (spec/50_interfaces.md R176) -/

/-- Only PRN and PRA emit console events. -/
theorem exec_console_of_not_print (h : exec i s = .next t) (hi : ∀ a, i ≠ .prn a ∧ i ≠ .pra a) :
    t.console = s.console := by
  cases exec_shape h with
  | @print a v => exact absurd rfl (hi a).1
  | @printChar a v => exact absurd rfl (hi a).2
  | _ => rfl

/-! ## The halt bookkeeping (spec/10_state.md R21) -/

/-- The result of a division by zero is reached from a division by zero only. -/
theorem haltsOn_of_exec_divZero (hop : i.opcode = 0xC3 ∨ i.opcode = 0xC4)
    (h : exec i s = .next (raise .divZero s).autoAdvance) : HaltsOn i s := by
  obtain ⟨a, b, hdiv⟩ := div_or_mod_of_opcode hop
  by_cases hwf : i.wellFormed = true
  · obtain ⟨ha, hb⟩ := (wellFormed_divMod hdiv).1 hwf
    by_cases hz : s.regs[b.toNat] = 0
    · exact .inr (.inr ⟨a, b, ha, hb, hdiv, hz⟩)
    · obtain ⟨v, hv⟩ := exec_divMod_of_ne hdiv ha hb hz
      have herrors := congrArg State.errors (Host.Outcome.next.inj (h.symm.trans hv))
      simp at herrors
  · exact .inr (.inl (Bool.eq_false_of_not_eq_true hwf))

theorem exec_haltState_of_not_haltsOn (hi : ¬ HaltsOn i s) (h : exec i s = .next t) : HaltStateKept s t := by
  obtain ⟨hbad, -⟩ | ⟨hop, rfl⟩ | ⟨rfl, -⟩ | hkept := (exec_shape h).halt_cases
  · exact absurd (.inr (.inl hbad)) hi
  · exact absurd (haltsOn_of_exec_divZero hop h) hi
  · exact absurd (.inl rfl) hi
  · exact hkept

end Frames

/-- Settles O31, by cases on the ways out of an instruction. -/
theorem registerFrame : Obligations.RegisterFrame := by
  intro i s
  obtain ⟨t, h⟩ := exec_next i s
  exact ⟨t, h, fun n hn hi => (exec_shape h).regs_frame hn hi⟩

/-- Settles O33: what is stored is stored by one write, at the store target. -/
theorem memoryFrame : Obligations.MemoryFrame := by
  intro i s
  obtain ⟨t, h⟩ := exec_next i s
  exact ⟨t, h, exec_mem_of_no_store h, fun _ hx => exec_read_frame h hx⟩

/-- Settles O35: PRN and PRA with a register operand emit its value, and everything else emits nothing. -/
theorem consoleFrame : Obligations.ConsoleFrame := by
  intro i s
  obtain ⟨t, h⟩ := exec_next i s
  refine ⟨t, h, ?_⟩
  split
  case h_1 a =>
    by_cases ha : a.toNat < 8
    · rw [dif_pos ha, ← Host.Outcome.next.inj ((printResults s a ha).1.symm.trans h)]
    · rw [exec_of_not_wellFormed (not_wellFormed_of_one rfl ha)] at h
      rw [dif_neg ha, ← Host.Outcome.next.inj h, raise_console, List.append_nil]
  case h_2 a =>
    by_cases ha : a.toNat < 8
    · rw [dif_pos ha, ← Host.Outcome.next.inj ((printResults s a ha).2.symm.trans h)]
    · rw [exec_of_not_wellFormed (not_wellFormed_of_one rfl ha)] at h
      rw [dif_neg ha, ← Host.Outcome.next.inj h, raise_console, List.append_nil]
  case h_3 hprn hpra =>
    rw [exec_console_of_not_print h fun a => ⟨hprn a, hpra a⟩, List.append_nil]

/-- Settles O36: HLT emits nothing, and an instruction that does not halt keeps the halt bookkeeping. -/
theorem haltStateFrame : Obligations.HaltStateFrame := by
  intro i s
  obtain ⟨t, h⟩ := exec_next i s
  refine ⟨t, h, fun hi => ?_, fun hhlt hwf hdiv => ?_⟩
  · subst hi
    cases h
    rfl
  · refine exec_haltState_of_not_haltsOn ?_ h
    rintro (hi | hbad | ⟨a, b, -, hb, hi, hz⟩)
    · exact hhlt hi
    · cases hwf.symm.trans hbad
    · exact hdiv a b hb hi hz

/-! ## The program counter (spec/40_step_cycle.md R77, R80) -/

/-- The opcode bytes of the jumps belong to control transfers. -/
theorem isControlTransfer_of_jump_opcode {i : Instr} (h : i.opcode ∈ [0x31, 0x32, 0x33, 0x34, 0x35]) :
    isControlTransfer i = true := by
  cases i with
  | jmp | jeq | jne | jgt | jlt => rfl
  | _ => simp at h

/-- An instruction with legal operands that is no control transfer advances, the halting ones too. -/
theorem ExecShape.pc_of_not_controlTransfer {s t : State} {i : Instr} (h : ExecShape s i t)
    (hwf : i.wellFormed = true) (hi : isControlTransfer i = false) : t.pc = nextAddress s := by
  cases h with
  | invalid hbad => cases hwf.symm.trans hbad
  | jump hop r => cases hi.symm.trans (isControlTransfer_of_jump_opcode hop)
  | call r => cases hi
  | ret => cases hi
  | _ => exact State.autoAdvance_pc _

/-- Settles O37: the step executes with the opcode byte in `ir`, where the advance is by the instruction's length. -/
theorem nextPcOfEveryInstruction : Obligations.NextPcOfEveryInstruction := by
  intro s i hs hwf hdecode
  obtain ⟨t, h⟩ := step_next s
  have hexec : exec i s.fetchOpcode = .next t := (step_eq_exec_of_decode hs hdecode).symm.trans h
  have hnext : nextAddress s.fetchOpcode = s.pc + BitVec.ofNat 8 i.encode.length :=
    nextAddress_of_opcode (opcode_of_decode hdecode).symm
  have hpc {u : State} (hu : exec i s.fetchOpcode = .next u) : t.pc = u.pc :=
    congrArg State.pc (Host.Outcome.next.inj (hexec.symm.trans hu))
  refine ⟨t, h, fun hi => ((exec_shape hexec).pc_of_not_controlTransfer hwf hi).trans hnext, ?_, fun a ha => ?_⟩
  · rintro rfl
    exact hpc (exec_ret _)
  obtain ⟨hjmp, hjeq, hjne, hjgt, hjlt⟩ := jumpAndConditionalJumpResults s.fetchOpcode a ha
  rw [hnext] at hjeq hjne hjgt hjlt
  refine ⟨?_, ?_, ?_, ?_, ?_, ?_⟩ <;> rintro rfl
  · exact hpc hjmp
  · exact hpc (exec_call_of_lt _ ha)
  · exact hpc hjeq
  · exact hpc hjne
  · exact hpc hjgt
  · exact hpc hjlt

end Sys2Proof.Machine

/-! # Runs and inputs -/

namespace Sys2Proof.Machine

/-- Settles O40, by induction on the number of steps. -/
theorem everyRunAnswers : Obligations.EveryRunAnswers := by
  intro n
  induction n with
  | zero => exact fun s => ⟨s, rfl⟩
  | succ n ih =>
    intro s
    obtain ⟨u, hu⟩ := step_next s
    rw [run_succ n hu]
    exact ih u

/-- Settles O47: a tick leaves a halted machine as it is. -/
theorem onlyResetLeavesTheHaltedState : Obligations.OnlyResetLeavesTheHaltedState := by
  intro e s hs
  cases e with
  | tick => exact ⟨s, step_of_halted hs, fun hrun => nomatch hs.symm.trans hrun⟩
  | reset image => exact ⟨_, rfl, fun _ => ⟨image, rfl, rfl⟩⟩

/-- Settles O49, by evaluating the reset state; the image is in memory alone. -/
theorem resetValues : Obligations.ResetValues :=
  fun _ => ⟨rfl, rfl, rfl, rfl, rfl, rfl, rfl, rfl⟩

end Sys2Proof.Machine

/-! # Memory (spec/20_memory.md R30 to R34) -/

namespace Sys2Proof.Machine

/-- Settles O52: both operations reduce their address. -/
theorem addressesWrapMod256 : Obligations.AddressesWrapMod256 := by
  intro m x k v
  have hmod : (x + 256 * k) % 256 = x % 256 := Nat.add_mul_mod_self_left x 256 k
  exact ⟨by simp only [Memory.write, hmod], by simp only [Memory.read, hmod]⟩

/-- Settles O51, with the 256 bytes in order as the image: the loader leaves each at its own address. -/
theorem everyMemInitIsABootMemory : Obligations.EveryMemInitIsABootMemory := by
  intro f
  refine ⟨(List.range 256).map f, fun x hx => ?_⟩
  have hlen : ((List.range 256).map f).length = 256 := by rw [List.length_map, List.length_range]
  have hlast : (256 - 1 - x) / 256 = 0 := by omega
  rw [State.boot_mem, loaderWritesProgramFromAddressZero _ _ x hx, hlen, if_pos hx, hlast]
  simp [hx]

/-! ## The canonical form -/

theorem Memory.pairwise_of_rising {m : Memory} (h : Memory.rising m = true) : m.Pairwise fun c d => c.1 < d.1 := by
  induction m with
  | nil => exact .nil
  | cons c m ih => exact .cons (Memory.rising_head_lt h) (ih ((Memory.rising_cons c m).1 h).2)

/-- In a rising list that names no byte an unlisted cell could hold, the entries are the other bytes that are read. -/
theorem Memory.mem_iff_lookup {m : Memory} (hr : Memory.rising m = true) (hm : ∀ c ∈ m, c.2 ≠ Config.unlistedByte)
    (c : Host.Cell) : c ∈ m ↔ Memory.lookup m c.1 = c.2 ∧ c.2 ≠ Config.unlistedByte := by
  induction m with
  | nil => exact iff_of_false List.not_mem_nil fun ⟨h, hne⟩ => hne h.symm
  | cons d m ih =>
    have hbelow := Memory.rising_head_lt hr
    have ih := ih ((Memory.rising_cons d m).1 hr).2 fun e he => hm e (List.mem_cons_of_mem d he)
    rw [List.mem_cons, Memory.lookup]
    by_cases hdc : d.1 = c.1
    · have hnot : c ∉ m := fun hc => absurd (hbelow c hc) (hdc ▸ lt_irrefl _)
      rw [if_pos hdc, or_iff_left hnot]
      constructor
      · rintro rfl
        exact ⟨rfl, hm c List.mem_cons_self⟩
      · rintro ⟨h, -⟩
        exact Prod.ext hdc.symm h.symm
    · have hne : c ≠ d := fun h => hdc (h ▸ rfl)
      rw [if_neg hdc, or_iff_right hne, ih]

/-- The entries of a canonical memory, by the bytes that it reads. -/
theorem Memory.mem_iff_read {m : Memory} (hm : Memory.wf m = true) (c : Host.Cell) :
    c ∈ m ↔ c.1 < 256 ∧ Memory.read m c.1 = c.2 ∧ c.2 ≠ Config.unlistedByte := by
  obtain ⟨hr, hcells⟩ := (Memory.wf_iff m).1 hm
  have hlookup := Memory.mem_iff_lookup hr (fun d hd => (hcells d hd).2) c
  refine ⟨fun hc => ⟨(hcells c hc).1, ?_⟩, fun ⟨hlt, hread⟩ => ?_⟩
  · rw [Memory.read, Nat.mod_eq_of_lt (hcells c hc).1]
    exact hlookup.1 hc
  · rw [Memory.read, Nat.mod_eq_of_lt hlt] at hread
    exact hlookup.2 hread

/-- Settles O53: the bytes decide the entries, and a strictly rising list is decided by its entries. -/
theorem canonicalMemoryIsDeterminedByItsBytes : Obligations.CanonicalMemoryIsDeterminedByItsBytes := by
  intro m m' hm hm' hread
  obtain ⟨hr, -⟩ := (Memory.wf_iff m).1 hm
  obtain ⟨hr', -⟩ := (Memory.wf_iff m').1 hm'
  have : Std.Irrefl fun c d : Host.Cell => c.1 < d.1 := ⟨fun c => lt_irrefl c.1⟩
  have : Std.Antisymm fun c d : Host.Cell => c.1 < d.1 := ⟨fun _ _ h h' => absurd h' h.asymm⟩
  refine (Memory.pairwise_of_rising hr).eq_of_mem_iff (Memory.pairwise_of_rising hr') fun c => ?_
  rw [Memory.mem_iff_read hm, Memory.mem_iff_read hm', hread]

end Sys2Proof.Machine

/-! # What no instruction reads: `ir` but for the advance, and the output streams (spec/10_state.md R20, R23) -/

namespace Sys2Proof.Machine

/-- What an instruction does, as values that depend neither on `ir` nor on the streams. -/
structure Effect where
  regs : Vector Byte 8
  fl : Byte
  mem : Memory
  /-- The console event that is emitted. -/
  output : Option ConsoleEvent := none
  /-- The fault that is taken. -/
  fault : Option FaultKind := none
  /-- The cause with which the machine halts. -/
  halt : Option Cause := none
  /-- The next pc, where it is not the auto-advance. -/
  target : Option Byte := none

/-- The state after an effect. The fault's event and the auto-advance take the opcode byte from `ir`. -/
def State.perform (s : State) (e : Effect) : State where
  regs := e.regs
  pc := match e.target with
    | some p => p
    | none => s.autoAdvance.pc
  ir := s.ir
  fl := e.fl
  run := match e.halt with
    | some _ => false
    | none => s.run
  cause := match e.halt with
    | some c => c
    | none => s.cause
  mem := e.mem
  console := match e.output with
    | some x => s.console ++ [x]
    | none => s.console
  errors := match e.fault with
    | some k => s.errors ++ [⟨k, s.ir, s.pc⟩]
    | none => s.errors

/-- The state with other values in `ir` and in the streams. -/
def State.withUnread (s : State) (v : Byte) (c : List ConsoleEvent) (es : List ErrorEvent) : State :=
  { s with ir := v, console := c, errors := es }

/-- An operation has one effect on `s` whatever `ir` and the streams are. -/
def HasEffect (s : State) (o : State → StepOutcome) : Prop :=
  ∃ e : Effect, ∀ v c es, o (s.withUnread v c es) = .next ((s.withUnread v c es).perform e)

section Effects

variable {s : State} {a b : Byte}

/-- An operand that names no register faults at the `pc` as it is. -/
theorem raise_invalidRegister_hasEffect : HasEffect s fun u => .next (raise .invalidRegister u) :=
  ⟨{ regs := s.regs, fl := s.fl, mem := s.mem, fault := some .invalidRegister, halt := some .invalidRegister,
     target := some s.pc }, fun _ _ _ => rfl⟩

theorem withReg_hasEffect {k : State → RegIndex → StepOutcome} (hk : ∀ r, HasEffect s fun u => k u r) :
    HasEffect s fun u => withReg a u (k u) := by
  by_cases ha : a.toNat < 8
  · simp only [withReg_of_lt ha]
    exact hk _
  · simp only [withReg_of_not_lt ha]
    exact raise_invalidRegister_hasEffect

theorem withRegs_hasEffect {k : State → RegIndex → RegIndex → StepOutcome} (hk : ∀ r q, HasEffect s fun u => k u r q) :
    HasEffect s fun u => withRegs a b u (k u) :=
  withReg_hasEffect fun r => withReg_hasEffect fun q => hk r q

theorem setReg_autoAdvance_hasEffect (r : RegIndex) (f : State → Byte)
    (hf : ∀ v c es, f (s.withUnread v c es) = f s) : HasEffect s fun u => .next (u.setReg r (f u)).autoAdvance :=
  ⟨{ regs := (s.setReg r (f s)).regs, fl := s.fl, mem := s.mem }, fun v c es => by simp only [hf]; rfl⟩

theorem aluBinary_hasEffect (f : Byte → Byte → Byte) : HasEffect s (aluBinary f a b) :=
  withRegs_hasEffect fun r _ => setReg_autoAdvance_hasEffect r _ fun _ _ _ => rfl

theorem aluUnary_hasEffect (f : Byte → Byte) : HasEffect s (aluUnary f a) :=
  withReg_hasEffect fun r => setReg_autoAdvance_hasEffect r _ fun _ _ _ => rfl

/-- The divisor decides between the fault and the write, and it is neither in `ir` nor in the streams. -/
theorem aluDivide_hasEffect (f : Byte → Byte → Byte) : HasEffect s (aluDivide f a b) := by
  refine withRegs_hasEffect fun r q => ?_
  by_cases hz : s.reg q = 0
  · exact ⟨{ regs := s.regs, fl := s.fl, mem := s.mem, fault := some .divZero, halt := some .divZero },
      fun _ _ _ => if_pos hz⟩
  · exact ⟨{ regs := (s.setReg r (f (s.reg r) (s.reg q))).regs, fl := s.fl, mem := s.mem }, fun _ _ _ => if_neg hz⟩

/-- The condition of a jump is on `fl`. -/
theorem jumpIfFlagsAre_hasEffect (mask : Byte) : HasEffect s (jumpIfFlagsAre mask a) := by
  refine withReg_hasEffect fun r => ?_
  by_cases hfl : s.flagsAre mask
  · exact ⟨{ regs := s.regs, fl := s.fl, mem := s.mem, target := some (s.reg r) },
      fun _ _ _ => congrArg _ (if_pos hfl)⟩
  · exact ⟨{ regs := s.regs, fl := s.fl, mem := s.mem }, fun _ _ _ => congrArg _ (if_neg hfl)⟩

/-- Every instruction has an effect that depends neither on `ir` nor on the streams. -/
theorem exec_hasEffect (i : Instr) : HasEffect s (exec i) := by
  cases i with
  | nop | iret => exact ⟨{ regs := s.regs, fl := s.fl, mem := s.mem }, fun _ _ _ => rfl⟩
  | hlt => exact ⟨{ regs := s.regs, fl := s.fl, mem := s.mem, halt := some .hlt }, fun _ _ _ => rfl⟩
  | ret =>
    exact ⟨{ regs := s.incrementSp.regs, fl := s.fl, mem := s.mem, target := some s.readTop }, fun _ _ _ => rfl⟩
  | prn a =>
    exact withReg_hasEffect fun r =>
      ⟨{ regs := s.regs, fl := s.fl, mem := s.mem, output := some (.dec (s.reg r)) }, fun _ _ _ => rfl⟩
  | pra a =>
    exact withReg_hasEffect fun r =>
      ⟨{ regs := s.regs, fl := s.fl, mem := s.mem, output := some (.chr (s.reg r)) }, fun _ _ _ => rfl⟩
  | push a =>
    exact withReg_hasEffect fun r =>
      ⟨{ regs := s.pushReady.regs, fl := s.fl, mem := (s.pushReady.writeTop (s.pushReady.reg r)).mem },
        fun _ _ _ => rfl⟩
  | pop a =>
    exact withReg_hasEffect fun r =>
      ⟨{ regs := (s.incrementSp.setReg r s.readTop).regs, fl := s.fl, mem := s.mem }, fun _ _ _ => rfl⟩
  | call a =>
    exact withReg_hasEffect fun r =>
      ⟨{ regs := s.pushReady.regs, fl := s.fl, mem := (s.pushReady.writeTop s.returnAddress).mem,
         target := some (s.pushReady.reg r) }, fun _ _ _ => rfl⟩
  | jmp a =>
    exact withReg_hasEffect fun r =>
      ⟨{ regs := s.regs, fl := s.fl, mem := s.mem, target := some (s.reg r) }, fun _ _ _ => rfl⟩
  | jeq a | jne a | jgt a | jlt a => exact jumpIfFlagsAre_hasEffect _
  | ldi a lit => exact withReg_hasEffect fun r => setReg_autoAdvance_hasEffect r _ fun _ _ _ => rfl
  | ld a b => exact withRegs_hasEffect fun r q => setReg_autoAdvance_hasEffect r _ fun _ _ _ => rfl
  | st a b =>
    exact withRegs_hasEffect fun r q =>
      ⟨{ regs := s.regs, fl := s.fl, mem := (s.writeMem (s.indirectAddress r) (s.reg q)).mem }, fun _ _ _ => rfl⟩
  | not a | inc a | dec a => exact aluUnary_hasEffect _
  | add a b | sub a b | mul a b | and a b | or a b | xor a b => exact aluBinary_hasEffect _
  | div a b | mod a b => exact aluDivide_hasEffect _
  | cmp a b =>
    exact withRegs_hasEffect fun r q =>
      ⟨{ regs := s.regs, fl := s.fl ||| compareFlag (s.reg r) (s.reg q), mem := s.mem }, fun _ _ _ => rfl⟩

/-! ## An effect with another `ir` -/

/-- The error events of an effect. -/
def Effect.events (e : Effect) (s : State) : List ErrorEvent :=
  match e.fault with
  | some k => [⟨k, s.ir, s.pc⟩]
  | none => []

theorem State.perform_errors (s : State) (e : Effect) : (s.perform e).errors = s.errors ++ e.events s := by
  cases hf : e.fault <;> simp [State.perform, Effect.events, hf]

/-- The error events differ in the opcode byte. -/
theorem Effect.events_withIr (e : Effect) (s : State) (v : Byte) :
    e.events { s with ir := v } = (e.events s).map fun x => { x with op := v } := by
  cases hf : e.fault <;> simp [Effect.events, hf]

/-- Another `ir` reaches the advance through its operand count only. -/
theorem State.perform_pc_withIr (e : Effect) (s : State) {v : Byte} (hv : operandCount v = operandCount s.ir) :
    (State.perform { s with ir := v } e).pc = (s.perform e).pc := by
  cases ht : e.target <;> simp only [State.perform, State.autoAdvance, ht, hv]

/-! ## An effect after earlier events -/

theorem State.perform_append_streams (e : Effect) (s : State) (c : List ConsoleEvent) (es : List ErrorEvent) :
    State.perform { s with console := c ++ s.console, errors := es ++ s.errors } e =
      { s.perform e with console := c ++ (s.perform e).console, errors := es ++ (s.perform e).errors } := by
  cases ho : e.output <;> cases hf : e.fault <;>
    simp [State.perform, State.autoAdvance, ho, hf, List.append_assoc]

theorem raise_append_streams (k : FaultKind) (s : State) (c : List ConsoleEvent) (es : List ErrorEvent) :
    raise k { s with console := c ++ s.console, errors := es ++ s.errors } =
      { raise k s with console := c ++ (raise k s).console, errors := es ++ (raise k s).errors } := by
  simp only [raise_eq, List.append_assoc]

theorem exec_append_streams (i : Instr) (s : State) (c : List ConsoleEvent) (es : List ErrorEvent) :
    ∃ t, exec i s = .next t ∧ exec i { s with console := c ++ s.console, errors := es ++ s.errors } =
      .next { t with console := c ++ t.console, errors := es ++ t.errors } := by
  obtain ⟨e, he⟩ := exec_hasEffect (s := s) i
  exact ⟨s.perform e, he s.ir s.console s.errors,
    (he s.ir _ _).trans (congrArg _ (State.perform_append_streams e s c es))⟩

/-! ## The step -/

/-- A running machine that decodes no instruction takes the fault. -/
theorem step_eq_raise_of_decode_error {e : DecodeError} (hs : s.run = true)
    (h : s.fetchOpcode.decodeFetched = .error e) : step s = .next (raise .illegalOpcode s.fetchOpcode) := by
  simp only [step, hs, if_true, h]

/-- A running machine does not depend on what `ir` held before the fetch. -/
theorem step_withIr (hs : s.run = true) (v : Byte) : step { s with ir := v } = step s := by
  rw [step, step, if_pos hs, if_pos hs]
  rfl

end Effects

/-- Settles O34: an effect with another `ir`, and a step that overwrites `ir` before anything reads it. -/
theorem instructionRegisterIsOnlyFetched : Obligations.InstructionRegisterIsOnlyFetched := by
  refine ⟨fun i s v => ?_, fun s v hs => ?_⟩
  · obtain ⟨e, he⟩ := exec_hasEffect (s := s) i
    refine ⟨s.perform e, e.events s, (State.perform { s with ir := v } e).pc, he s.ir s.console s.errors, rfl,
      s.perform_errors e, (he v s.console s.errors).trans (congrArg _ ?_), State.perform_pc_withIr e s⟩
    rw [← Effect.events_withIr, ← State.perform_errors { s with ir := v }]
    rfl
  · obtain ⟨t, h⟩ := step_next s
    have hir := step_ir_of_running hs h
    refine ⟨t, h, hir, (step_withIr hs v).trans h, fun i hdecode => ?_⟩
    rw [hir] at hdecode ⊢
    exact (step_eq_exec_of_decode hs hdecode).symm.trans h

/-- Settles O56, in each of the three branches of the step. -/
theorem streamsAreNotRead : Obligations.StreamsAreNotRead := by
  intro s c es
  by_cases hs : s.run = true
  · cases hdecode : s.fetchOpcode.decodeFetched with
    | ok i =>
      obtain ⟨t, h, h'⟩ := exec_append_streams i s.fetchOpcode c es
      exact ⟨t, (step_eq_exec_of_decode hs hdecode).trans h,
        (step_eq_exec_of_decode (s := { s with console := c ++ s.console, errors := es ++ s.errors }) hs hdecode).trans
          h'⟩
    | error e =>
      refine ⟨_, step_eq_raise_of_decode_error hs hdecode, ?_⟩
      rw [← raise_append_streams]
      exact step_eq_raise_of_decode_error (s := { s with console := c ++ s.console, errors := es ++ s.errors }) hs
        hdecode
  · have hs := Bool.eq_false_of_not_eq_true hs
    exact ⟨s, step_of_halted hs, step_of_halted hs⟩

end Sys2Proof.Machine
